-- ==== Sys2Proof/Word.lean ====
section
/-! DEFINITION. The word types of the CORE (spec/00_scope.md R8 and R10, spec/30_encoding.md R82): every value is unsigned. -/

namespace Sys2Proof

/-- A general register, a timer, a memory byte or the immediate NN: 8 bits (R30, R37, R38, R42, R82). -/
abbrev Byte := BitVec 8

/-- pc, I, a return address or an instruction word: 16 bits (R33, R35, R36, R80). -/
abbrev Word := BitVec 16

/-- The address field NNN: 12 bits (R82). -/
abbrev Addr12 := BitVec 12

/-- A four-bit field: the family F, the row count N, a sub-opcode (R82). -/
abbrev Nibble := BitVec 4

/-- The index of a general register: a four-bit field, so every index names a register (R30). -/
abbrev Reg := Fin 16

/-- The index of a key: four bits on the host's interface, so no index outside 0 to 15 exists (R41, R211). -/
abbrev Key := Fin 16

/-- `VF` abbreviates `V[0xF]` (R11). -/
abbrev VF : Reg := 15

end Sys2Proof
end

