-- ==== Sys2Proof/Config.lean ====
section
/-! DEFINITION. The parameters of spec/00_scope.md R8 that shape the state, and the one free value of the spec.
The parameters a run could show wrong (FONT, VF_FLAG_LAST, STACK_DEPTH, SOUND_TIMER_DECAYS, STEPS_PER_FRAME) stand in
Machine/Params.lean under the same name space. -/

namespace Sys2Proof

/-- `MEM_SIZE`: addresses 0x000 to 0xFFF (R8, R60). -/
abbrev Config.memSize : Nat := 4096

/-- `PROG_BASE`: the load address and the reset pc (R8, R48). -/
abbrev Config.progBase : Nat := 0x200

/-- `DISPLAY_W`: columns 0 to 63 (R8, R190; log 10). -/
abbrev Config.displayW : Nat := 64

/-- `DISPLAY_H`: rows 0 to 31 (R8, R190; log 10). -/
abbrev Config.displayH : Nat := 32

/-- `RAND`: the byte of the n-th draw (R8, R158). A FREE VALUE: no body, so no proof can see it and a claim about it
holds for every sequence of draws (log 3). -/
opaque Config.randomByte : Nat → Byte

/-- A column of the display: every coordinate the core passes is in range (R190). -/
abbrev Col := Fin Config.displayW

/-- A row of the display (R190). -/
abbrev Row := Fin Config.displayH

end Sys2Proof
end

