-- ==== Sys2Proof/Syntax.lean ====
section
/-! DEFINITION. The 34 instructions, one constructor per row of spec/opcode_table.json, in the table's order. Every field
has exactly the width of spec/30_encoding.md R82, so every term is an instruction of the hardware. -/

namespace Sys2Proof

inductive Instr where
  /-- 00E0, R195 -/
  | cls
  /-- 00EE, R120 -/
  | ret
  /-- 1NNN, R121 -/
  | jp (nnn : Addr12)
  /-- 2NNN, R122 -/
  | call (nnn : Addr12)
  /-- 3XNN, R126 -/
  | seImm (x : Reg) (nn : Byte)
  /-- 4XNN, R127 -/
  | sneImm (x : Reg) (nn : Byte)
  /-- 5XY0, R128 -/
  | seReg (x y : Reg)
  /-- 6XNN, R141 -/
  | ldImm (x : Reg) (nn : Byte)
  /-- 7XNN, R142 -/
  | addImm (x : Reg) (nn : Byte)
  /-- 8XY0, R143 -/
  | ldReg (x y : Reg)
  /-- 8XY1, R144 -/
  | orReg (x y : Reg)
  /-- 8XY2, R145 -/
  | andReg (x y : Reg)
  /-- 8XY3, R146 -/
  | xorReg (x y : Reg)
  /-- 8XY4, R147 -/
  | addReg (x y : Reg)
  /-- 8XY5, R148 -/
  | sub (x y : Reg)
  /-- 8XY6, R149 -/
  | shr (x y : Reg)
  /-- 8XY7, R150 -/
  | subn (x y : Reg)
  /-- 8XYE, R151 -/
  | shl (x y : Reg)
  /-- 9XY0, R129 -/
  | sneReg (x y : Reg)
  /-- ANNN, R170 -/
  | ldI (nnn : Addr12)
  /-- BNNN, R124 -/
  | jpV0 (nnn : Addr12)
  /-- CXNN, R157 -/
  | rnd (x : Reg) (nn : Byte)
  /-- DXYN, R193 -/
  | drw (x y : Reg) (n : Nibble)
  /-- EX9E, R214 -/
  | skp (x : Reg)
  /-- EXA1, R215 -/
  | sknp (x : Reg)
  /-- FX07, R230 -/
  | ldVxDT (x : Reg)
  /-- FX0A, R216 -/
  | ldVxK (x : Reg)
  /-- FX15, R231 -/
  | ldDTVx (x : Reg)
  /-- FX18, R232 -/
  | ldSTVx (x : Reg)
  /-- FX1E, R171 -/
  | addIVx (x : Reg)
  /-- FX29, R172 -/
  | ldFVx (x : Reg)
  /-- FX33, R173 -/
  | ldBVx (x : Reg)
  /-- FX55, R174 -/
  | ldMemVx (x : Reg)
  /-- FX65, R175 -/
  | ldVxMem (x : Reg)
deriving DecidableEq, Repr

/-- The mnemonic of an instruction, as spec/opcode_table.json spells it. -/
def Instr.mnemonic : Instr → String
  | .cls => "CLS"
  | .ret => "RET"
  | .jp _ => "JP"
  | .call _ => "CALL"
  | .seImm _ _ => "SE_imm"
  | .sneImm _ _ => "SNE_imm"
  | .seReg _ _ => "SE_reg"
  | .ldImm _ _ => "LD_imm"
  | .addImm _ _ => "ADD_imm"
  | .ldReg _ _ => "LD_reg"
  | .orReg _ _ => "OR"
  | .andReg _ _ => "AND"
  | .xorReg _ _ => "XOR"
  | .addReg _ _ => "ADD_reg"
  | .sub _ _ => "SUB"
  | .shr _ _ => "SHR"
  | .subn _ _ => "SUBN"
  | .shl _ _ => "SHL"
  | .sneReg _ _ => "SNE_reg"
  | .ldI _ => "LD_I"
  | .jpV0 _ => "JP_V0"
  | .rnd _ _ => "RND"
  | .drw _ _ _ => "DRW"
  | .skp _ => "SKP"
  | .sknp _ => "SKNP"
  | .ldVxDT _ => "LD_Vx_DT"
  | .ldVxK _ => "LD_Vx_K"
  | .ldDTVx _ => "LD_DT_Vx"
  | .ldSTVx _ => "LD_ST_Vx"
  | .addIVx _ => "ADD_I_Vx"
  | .ldFVx _ => "LD_F_Vx"
  | .ldBVx _ => "LD_B_Vx"
  | .ldMemVx _ => "LD_mem_Vx"
  | .ldVxMem _ => "LD_Vx_mem"

end Sys2Proof
end

