-- ==== Sys2Proof/WellFormed.lean ====
section
/-! DEFINITION. Which 16-bit words are instructions: the opcode table of the spec as rows of a mask and a pattern
(spec/30_encoding.md R83, R85, R87), apart from the decoder, so that the two can be compared. The fields of `Instr` have the
encoding's own widths, so what can be ill-formed is a word, never a term; `Instr.wellFormed` (Decode.lean) asks the encoder's word. -/

namespace Sys2Proof

/-- One row of spec/opcode_table.json: a word belongs to the row when its bits under `mask` are `pattern`. -/
structure OpRow where
  mnemonic : String
  mask : Word
  pattern : Word
deriving DecidableEq, Repr

/-- The word belongs to the row. -/
def OpRow.fits (r : OpRow) (w : Word) : Bool := w &&& r.mask == r.pattern

/-- No word belongs to both rows: some bit fixed by both has two values (R87). -/
def OpRow.apart (r q : OpRow) : Bool := (r.pattern ^^^ q.pattern) &&& r.mask &&& q.mask != 0

/-- The 34 rows of spec/opcode_table.json, in its order (R87). -/
def opcodeTable : List OpRow :=
  [⟨"CLS", 0xFFFF, 0x00E0⟩,
   ⟨"RET", 0xFFFF, 0x00EE⟩,
   ⟨"JP", 0xF000, 0x1000⟩,
   ⟨"CALL", 0xF000, 0x2000⟩,
   ⟨"SE_imm", 0xF000, 0x3000⟩,
   ⟨"SNE_imm", 0xF000, 0x4000⟩,
   ⟨"SE_reg", 0xF00F, 0x5000⟩,
   ⟨"LD_imm", 0xF000, 0x6000⟩,
   ⟨"ADD_imm", 0xF000, 0x7000⟩,
   ⟨"LD_reg", 0xF00F, 0x8000⟩,
   ⟨"OR", 0xF00F, 0x8001⟩,
   ⟨"AND", 0xF00F, 0x8002⟩] ++
  [⟨"XOR", 0xF00F, 0x8003⟩,
   ⟨"ADD_reg", 0xF00F, 0x8004⟩,
   ⟨"SUB", 0xF00F, 0x8005⟩,
   ⟨"SHR", 0xF00F, 0x8006⟩,
   ⟨"SUBN", 0xF00F, 0x8007⟩,
   ⟨"SHL", 0xF00F, 0x800E⟩,
   ⟨"SNE_reg", 0xF00F, 0x9000⟩,
   ⟨"LD_I", 0xF000, 0xA000⟩,
   ⟨"JP_V0", 0xF000, 0xB000⟩,
   ⟨"RND", 0xF000, 0xC000⟩,
   ⟨"DRW", 0xF000, 0xD000⟩,
   ⟨"SKP", 0xF0FF, 0xE09E⟩] ++
  [⟨"SKNP", 0xF0FF, 0xE0A1⟩,
   ⟨"LD_Vx_DT", 0xF0FF, 0xF007⟩,
   ⟨"LD_Vx_K", 0xF0FF, 0xF00A⟩,
   ⟨"LD_DT_Vx", 0xF0FF, 0xF015⟩,
   ⟨"LD_ST_Vx", 0xF0FF, 0xF018⟩,
   ⟨"ADD_I_Vx", 0xF0FF, 0xF01E⟩,
   ⟨"LD_F_Vx", 0xF0FF, 0xF029⟩,
   ⟨"LD_B_Vx", 0xF0FF, 0xF033⟩,
   ⟨"LD_mem_Vx", 0xF0FF, 0xF055⟩,
   ⟨"LD_Vx_mem", 0xF0FF, 0xF065⟩]

/-- A legal word: some row of the table fits it. Every other word is illegal (R87, R89). -/
def legalWord (w : Word) : Bool := opcodeTable.any (·.fits w)

end Sys2Proof
end

