-- ==== Sys2Proof/Decode.lean ====
section
/-! DEFINITION. The decoder of spec/30_encoding.md R86, total on every word and on every list of bytes, the byte order of
R64 and R81, and after it the encoder, from the formats of R83. -/

namespace Sys2Proof

/-- The families of illegal words of R88, by name, and the byte list that is too short to hold an instruction. -/
inductive Reject where
  /-- 0x0NNN other than 0x00E0 and 0x00EE -/
  | family0 (w : Word)
  /-- 0x5XYN with N not 0 -/
  | family5 (w : Word)
  /-- 0x8XYN with N in 8, 9, A, B, C, D, F -/
  | family8 (w : Word)
  /-- 0x9XYN with N not 0 -/
  | family9 (w : Word)
  /-- 0xEXNN with NN neither 9E nor A1 -/
  | familyE (w : Word)
  /-- 0xFXNN with NN outside the nine of the table -/
  | familyF (w : Word)
  /-- fewer than two bytes (R80) -/
  | truncated
deriving DecidableEq, Repr

/-- The primary opcode F, bits 15 to 12 (R82). -/
def fieldF (w : Word) : Nibble := w.extractLsb' 12 4

/-- The register index X, bits 11 to 8 (R82). -/
def fieldX (w : Word) : Reg := (w.extractLsb' 8 4).toFin

/-- The register index Y, bits 7 to 4 (R82). -/
def fieldY (w : Word) : Reg := (w.extractLsb' 4 4).toFin

/-- The row count or sub-opcode N, bits 3 to 0 (R82). -/
def fieldN (w : Word) : Nibble := w.extractLsb' 0 4

/-- The immediate or sub-opcode NN, bits 7 to 0 (R82). -/
def fieldNN (w : Word) : Byte := w.extractLsb' 0 8

/-- The address NNN, bits 11 to 0 (R82). -/
def fieldNNN (w : Word) : Addr12 := w.extractLsb' 0 12

/-- Family 0: the whole word selects (R85). -/
def decode0 (w : Word) : Except Reject Instr :=
  if w = 0x00E0 then .ok .cls else if w = 0x00EE then .ok .ret else .error (.family0 w)

/-- Family 8: N selects (R85). -/
def decode8 (w : Word) : Except Reject Instr :=
  match (fieldN w).toNat with
  | 0x0 => .ok (.ldReg (fieldX w) (fieldY w))
  | 0x1 => .ok (.orReg (fieldX w) (fieldY w))
  | 0x2 => .ok (.andReg (fieldX w) (fieldY w))
  | 0x3 => .ok (.xorReg (fieldX w) (fieldY w))
  | 0x4 => .ok (.addReg (fieldX w) (fieldY w))
  | 0x5 => .ok (.sub (fieldX w) (fieldY w))
  | 0x6 => .ok (.shr (fieldX w) (fieldY w))
  | 0x7 => .ok (.subn (fieldX w) (fieldY w))
  | 0xE => .ok (.shl (fieldX w) (fieldY w))
  | _ => .error (.family8 w)

/-- Family E: NN selects (R85). -/
def decodeE (w : Word) : Except Reject Instr :=
  match (fieldNN w).toNat with
  | 0x9E => .ok (.skp (fieldX w))
  | 0xA1 => .ok (.sknp (fieldX w))
  | _ => .error (.familyE w)

/-- Family F: NN selects (R85). -/
def decodeF (w : Word) : Except Reject Instr :=
  match (fieldNN w).toNat with
  | 0x07 => .ok (.ldVxDT (fieldX w))
  | 0x0A => .ok (.ldVxK (fieldX w))
  | 0x15 => .ok (.ldDTVx (fieldX w))
  | 0x18 => .ok (.ldSTVx (fieldX w))
  | 0x1E => .ok (.addIVx (fieldX w))
  | 0x29 => .ok (.ldFVx (fieldX w))
  | 0x33 => .ok (.ldBVx (fieldX w))
  | 0x55 => .ok (.ldMemVx (fieldX w))
  | 0x65 => .ok (.ldVxMem (fieldX w))
  | _ => .error (.familyF w)

/-- `decode(w)` of R86: the family first, then the low nibble or the low byte. Strict, by the spec's decision D14 (log 13). -/
def decodeWord (w : Word) : Except Reject Instr :=
  match (fieldF w).toNat with
  | 0x0 => decode0 w
  | 0x1 => .ok (.jp (fieldNNN w))
  | 0x2 => .ok (.call (fieldNNN w))
  | 0x3 => .ok (.seImm (fieldX w) (fieldNN w))
  | 0x4 => .ok (.sneImm (fieldX w) (fieldNN w))
  | 0x5 => if fieldN w = 0 then .ok (.seReg (fieldX w) (fieldY w)) else .error (.family5 w)
  | 0x6 => .ok (.ldImm (fieldX w) (fieldNN w))
  | 0x7 => .ok (.addImm (fieldX w) (fieldNN w))
  | 0x8 => decode8 w
  | 0x9 => if fieldN w = 0 then .ok (.sneReg (fieldX w) (fieldY w)) else .error (.family9 w)
  | 0xA => .ok (.ldI (fieldNNN w))
  | 0xB => .ok (.jpV0 (fieldNNN w))
  | 0xC => .ok (.rnd (fieldX w) (fieldNN w))
  | 0xD => .ok (.drw (fieldX w) (fieldY w) (fieldN w))
  | 0xE => decodeE w
  | _ => decodeF w

/-- The instruction word of two bytes, the byte at the lower address in bits 15 to 8 (R64, R81). -/
def wordOfBytes (hi lo : Byte) : Word := hi ++ lo

/-- The byte of a word that lies at the lower address (R64). -/
def highByte (w : Word) : Byte := w.extractLsb' 8 8

/-- The byte of a word that lies at the higher address (R64). -/
def lowByte (w : Word) : Byte := w.extractLsb' 0 8

/-- A word laid out as the hardware stores it, the first byte at the lowest address (R64). -/
def bytesOfWord (w : Word) : List Byte := [highByte w, lowByte w]

/-- The instruction at the head of a list of bytes, with the rest of the list: always two bytes (R80). -/
def decode : List Byte → Except Reject (Instr × List Byte)
  | hi :: lo :: rest => (decodeWord (wordOfBytes hi lo)).map (fun i => (i, rest))
  | _ => .error .truncated

/-- The word of an instruction whose bits, numbered as spec/opcode_table.json numbers them, are `w`: `nbits` of them given,
the bits above 0. -/
def tableWord (nbits w : Nat) : Word := BitVec.ofNat 16 (w % 2 ^ nbits)

/-- What the decoder reads from the bytes of a table word. -/
def decodeTableWord (nbits w : Nat) : Option Instr :=
  match decode (bytesOfWord (tableWord nbits w)) with
  | .ok (i, _) => some i
  | .error _ => none

/-- Format `A12`: `FFFF aaaa aaaa aaaa` (R83). -/
def fmtA12 (f : Nibble) (nnn : Addr12) : Word := f ++ nnn

/-- Format `RI8`: `FFFF xxxx kkkk kkkk` (R83). -/
def fmtRI8 (f : Nibble) (x : Reg) (nn : Byte) : Word := f ++ (BitVec.ofFin x : Nibble) ++ nn

/-- Formats `RRS` and `RRN`: `FFFF xxxx yyyy ssss` (R83). -/
def fmtRRS (f : Nibble) (x y : Reg) (n : Nibble) : Word :=
  f ++ (BitVec.ofFin x : Nibble) ++ (BitVec.ofFin y : Nibble) ++ n

/-- Format `RS8`: `FFFF xxxx ssss ssss` (R83). -/
def fmtRS8 (f : Nibble) (x : Reg) (ss : Byte) : Word := fmtRI8 f x ss

/-- The word of an instruction, from the formats of R83 and the patterns of spec/opcode_table.json. -/
def encode : Instr → Word
  | .cls => 0x00E0
  | .ret => 0x00EE
  | .jp nnn => fmtA12 0x1 nnn
  | .call nnn => fmtA12 0x2 nnn
  | .seImm x nn => fmtRI8 0x3 x nn
  | .sneImm x nn => fmtRI8 0x4 x nn
  | .seReg x y => fmtRRS 0x5 x y 0x0
  | .ldImm x nn => fmtRI8 0x6 x nn
  | .addImm x nn => fmtRI8 0x7 x nn
  | .ldReg x y => fmtRRS 0x8 x y 0x0
  | .orReg x y => fmtRRS 0x8 x y 0x1
  | .andReg x y => fmtRRS 0x8 x y 0x2
  | .xorReg x y => fmtRRS 0x8 x y 0x3
  | .addReg x y => fmtRRS 0x8 x y 0x4
  | .sub x y => fmtRRS 0x8 x y 0x5
  | .shr x y => fmtRRS 0x8 x y 0x6
  | .subn x y => fmtRRS 0x8 x y 0x7
  | .shl x y => fmtRRS 0x8 x y 0xE
  | .sneReg x y => fmtRRS 0x9 x y 0x0
  | .ldI nnn => fmtA12 0xA nnn
  | .jpV0 nnn => fmtA12 0xB nnn
  | .rnd x nn => fmtRI8 0xC x nn
  | .drw x y n => fmtRRS 0xD x y n
  | .skp x => fmtRS8 0xE x 0x9E
  | .sknp x => fmtRS8 0xE x 0xA1
  | .ldVxDT x => fmtRS8 0xF x 0x07
  | .ldVxK x => fmtRS8 0xF x 0x0A
  | .ldDTVx x => fmtRS8 0xF x 0x15
  | .ldSTVx x => fmtRS8 0xF x 0x18
  | .addIVx x => fmtRS8 0xF x 0x1E
  | .ldFVx x => fmtRS8 0xF x 0x29
  | .ldBVx x => fmtRS8 0xF x 0x33
  | .ldMemVx x => fmtRS8 0xF x 0x55
  | .ldVxMem x => fmtRS8 0xF x 0x65

/-- An instruction is well formed when its word is legal (R87, R90). -/
def Instr.wellFormed (i : Instr) : Bool := legalWord (encode i)

end Sys2Proof
end

