-- ==== Sys2Proof/Machine/Params.lean ====
section
/-! DEFINITION. The values this hardware takes for the parameters of spec/00_scope.md R8 that do not shape the state. -/

namespace Sys2Proof

/-- `FONT`: glyph d occupies the five bytes from 5d, top row first (R66). The values are the default table of R66, which
the spec itself takes from general knowledge. PRESUMED (log 6): unsafe for a claim that reads font bytes. -/
def Config.font : List Byte :=
  [0xF0, 0x90, 0x90, 0x90, 0xF0,  0x20, 0x60, 0x20, 0x20, 0x70,
   0xF0, 0x10, 0xF0, 0x80, 0xF0,  0xF0, 0x10, 0xF0, 0x10, 0xF0] ++
  [0x90, 0x90, 0xF0, 0x10, 0x10,  0xF0, 0x80, 0xF0, 0x10, 0xF0,
   0xF0, 0x80, 0xF0, 0x90, 0xF0,  0xF0, 0x10, 0x20, 0x40, 0x40] ++
  [0xF0, 0x90, 0xF0, 0x90, 0xF0,  0xF0, 0x90, 0xF0, 0x10, 0xF0,
   0xF0, 0x90, 0xF0, 0x90, 0x90,  0xE0, 0x90, 0xE0, 0x90, 0xE0] ++
  [0xF0, 0x80, 0x80, 0x80, 0xF0,  0xE0, 0x90, 0x90, 0x90, 0xE0,
   0xF0, 0x80, 0xF0, 0x80, 0xF0,  0xF0, 0x80, 0xF0, 0x80, 0x80]

/-- `FONT_BASE`: where the font image starts (R8). -/
def Config.fontBase : Nat := 0

/-- `FONT_GLYPH_BYTES`: the bytes of one glyph, the factor of FX29 (R8, R172). -/
def Config.fontGlyphBytes : Nat := 5

/-- `VF_FLAG_LAST`: the flag is the last write to VF (R152). The spec's decision D6 (log 7). -/
def Config.vfFlagLast : Bool := true

/-- `STACK_DEPTH`: `none` is the unbounded stack of this hardware, `some d` a realisation of depth d (R123). The spec's
decision D7 (log 8). -/
def Config.stackDepth : Option Nat := none

/-- `SOUND_TIMER_DECAYS` (R253). The spec's decision D8 (log 9). -/
def Config.soundTimerDecays : Bool := false

/-- `STEPS_PER_FRAME` (R256). The spec's decision D17 (log 10). -/
def Config.stepsPerFrame : Nat := 10

end Sys2Proof
end

