-- ==== Sys2Proof/Machine/State.lean ====
section
/-! DEFINITION. The state of the CORE: the tuple of spec/10_state.md R47, its reset values (R48), and the reasons a step stops. -/

namespace Sys2Proof.Machine

/-- The access that went out of bounds, part of a fault's record (spec/60_exceptions.md R240). -/
inductive Access where
  | read
  | write
deriving DecidableEq, Repr

/-- The fault kinds of R240 with the information each records. A fault is TAKEN as R241 says: the operation that raises it
answers a next state that holds the record (`State.fault`); `step` answers `Outcome.fault` only for a core that is already
faulted, with the recorded fault (R242; log 1). -/
inductive Fault where
  /-- Code 1. Raised by the step's decode of a word with no handler (R103, R244): the word and its address. Safe: the spec states it (strict decoding, log 13). -/
  | decodeError (word addr : Word)
  /-- Code 2. Raised by 00EE on an empty stack (R120): the address of the instruction. Safe: the spec states it. -/
  | stackUnderflow (addr : Word)
  /-- Code 3. Raised by a byte access at an address of 4096 or more (R61): by the fetch, DXYN, FX33, FX55, FX65 and the program
  load; the byte address, the access, and the address of the instruction if in a step. Safe: the spec states it. -/
  | memoryOutOfBounds (addr : Nat) (access : Access) (instr : Option Word)
  /-- Code 4. Raised by EX9E and EXA1 when V[X] is 16 or more (R212): V[X] and the address of the instruction. Safe: the spec errs toward a fault (log 14). -/
  | keyOutOfRange (key : Byte) (addr : Word)
  /-- Code 5. Raised by 2NNN on a full stack of finite depth (R123), never for this hardware (log 8). Safe where a depth is given. -/
  | stackOverflow (addr : Word)
deriving DecidableEq, Repr

/-- Why a step would have no meaning. -/
inductive Refusal where
  /-- Raised by an arm of `exec` whose instruction has no meaning yet; no arm is left that raises it. Safe: the model stops. -/
  | notModelled (mnemonic : String)
deriving DecidableEq, Repr

/-- The bytes of memory that differ from the reset contents, by rising address (`Memory.wf`, Ops.lean). -/
abbrev Memory := List Host.Cell

/-- The architectural state (R47), and `draws`, the model's own. -/
structure State where
  /-- V0 to VF (R30) -/
  v : Vector Byte 16
  /-- the index register I (R35) -/
  i : Word
  /-- the program counter (R33) -/
  pc : Word
  /-- the call stack, the most recent return address last (R36) -/
  stack : List Word
  /-- the delay timer DT (R37) -/
  dt : Byte
  /-- the sound timer ST (R38) -/
  st : Byte
  /-- true while awaiting a key press (R39) -/
  halted : Bool
  /-- `disp[x][y]`: column x, row y (R40) -/
  disp : Vector (Vector Bool Config.displayH) Config.displayW
  /-- `key[k]`: true means pressed (R41, R210) -/
  key : Vector Bool 16
  /-- the 4096 bytes (R42) -/
  mem : Memory
  /-- the fault record; `faulted` is that there is one (R43, R241; log 25) -/
  fault : Option Fault
  /-- THE MODEL'S OWN: how many random bytes have been drawn (R158; log 3) -/
  draws : Nat
deriving DecidableEq, Repr

/-- The boolean `faulted` of R43. -/
def State.faulted (s : State) : Bool := s.fault.isSome

/-- The machine right after RESET with the empty program (R48, R270): memory lists nothing, so every byte reads as its
reset contents. `draws` is the model's (DESIGN CHOICE, log 3). -/
def State.reset : State where
  v := .replicate 16 0
  i := 0
  pc := BitVec.ofNat 16 Config.progBase
  stack := []
  dt := 0
  st := 0
  halted := false
  disp := .replicate Config.displayW (.replicate Config.displayH false)
  key := .replicate 16 false
  mem := []
  fault := none
  draws := 0

end Sys2Proof.Machine
end

