-- ==== Sys2Proof/Machine/Ops.lean ====
section
/-! DEFINITION. The named operations over registers, memory, the call stack, the display and the keyboard, and entering a
fault: the primitives of spec/00_scope.md R11 to R14. -/

namespace Sys2Proof.Machine

/-! ## Results -/

/-- How an operation ends: with a value and the state, or at a `raise` with the state it leaves (R14). -/
inductive Res (α : Type) where
  | ok (a : α) (s : State)
  | raised (s : State)

/-- No statement after a `raise` executes (R14). -/
def Res.bind {α β : Type} (r : Res α) (f : α → State → Res β) : Res β :=
  match r with
  | .ok a s => f a s
  | .raised s => .raised s

/-- The outcome of an instruction: a raised fault is in the next state (R241; log 1). -/
def Res.outcome (r : Res Unit) : Host.Outcome State Fault Refusal :=
  match r with
  | .ok _ s => .next s
  | .raised s => .next s

/-! ## Faults -/

/-- The code of a fault kind (R240). -/
def Fault.code : Fault → Nat
  | .decodeError _ _ => 1
  | .stackUnderflow _ => 2
  | .memoryOutOfBounds _ _ _ => 3
  | .keyOutOfRange _ _ => 4
  | .stackOverflow _ => 5

/-- TAKING A FAULT: `faulted` is set and the record kept, every earlier effect stands, no register is saved and no control
is transferred (R241). -/
def enterFault (f : Fault) (s : State) : State := { s with fault := some f }

/-- `raise Fault(kind, info)` (R14). -/
def raise {α : Type} (f : Fault) (s : State) : Res α := .raised (enterFault f s)

/-- The address a of the instruction that executes: the fetch has made pc a + 2 (R33; log 4). -/
def State.instrAddr (s : State) : Word := s.pc - 2

/-! ## General registers -/

/-- `V[r]` (R11). -/
def State.reg (s : State) (r : Reg) : Byte := s.v[r]

/-- `V[r] <- b` (R11). -/
def State.setReg (s : State) (r : Reg) (b : Byte) : State := { s with v := s.v.set r b }

/-! ## Memory -/

/-- What an address that memory does not list reads as: its reset contents, the font image at 0x000 and zero above it
(R48, R66; log 22). -/
def Memory.unlisted (a : Nat) : Byte :=
  if Config.fontBase ≤ a then (Config.font[a - Config.fontBase]?).getD 0 else 0

/-- The byte listed at an address. -/
def Memory.lookup : Memory → Nat → Option Byte
  | [], _ => none
  | c :: m, a => if c.1 = a then some c.2 else Memory.lookup m a

/-- The byte at an address of the store. -/
def Memory.read (m : Memory) (a : Nat) : Byte := (Memory.lookup m a).getD (Memory.unlisted a)

/-- Lists a byte, in its place by address. -/
def Memory.insert : Memory → Nat → Byte → Memory
  | [], a, b => [(a, b)]
  | c :: m, a, b =>
    if a < c.1 then (a, b) :: c :: m else if a = c.1 then (a, b) :: m else c :: Memory.insert m a b

/-- Lists nothing at an address. -/
def Memory.erase : Memory → Nat → Memory
  | [], _ => []
  | c :: m, a => if c.1 = a then m else c :: Memory.erase m a

/-- Stores a byte, keeping the canonical form: the byte an unlisted address reads as is not listed. -/
def Memory.write (m : Memory) (a : Nat) (b : Byte) : Memory :=
  if b = Memory.unlisted a then Memory.erase m a else Memory.insert m a b

/-- Stores a byte if the address is inside the store, and nothing otherwise: how an instruction is placed from outside (log 17). -/
def Memory.place (m : Memory) (a : Nat) (b : Byte) : Memory := if a < Config.memSize then Memory.write m a b else m

/-- The listed cells are canonical from address `lo` on: rising addresses inside the store, none listed with the byte it
would read as anyway. -/
def Memory.wfFrom : Nat → Memory → Bool
  | _, [] => true
  | lo, c :: m => decide (lo ≤ c.1) && decide (c.1 < Config.memSize) && decide (c.2 ≠ Memory.unlisted c.1) && Memory.wfFrom (c.1 + 1) m

/-- The canonical form of memory. -/
def Memory.wf (m : Memory) : Bool := Memory.wfFrom 0 m

/-- `MemRead(addr, 1)` with its bounds check (R12, R61). `ia` is the address of the instruction, if in a step (R240). -/
def memRead (ia : Option Word) (addr : Nat) (s : State) : Res Byte :=
  if addr < Config.memSize then .ok (s.mem.read addr) s else raise (.memoryOutOfBounds addr .read ia) s

/-- `MemWrite(addr, 1, b)` with its bounds check (R12, R61): a failed access has no effect on memory. -/
def memWrite (ia : Option Word) (addr : Nat) (b : Byte) (s : State) : Res Unit :=
  if addr < Config.memSize then .ok () { s with mem := s.mem.write addr b } else raise (.memoryOutOfBounds addr .write ia) s

/-- Byte writes in ascending address order, each checked on its own; those before the one that fails stand (R63). -/
def storeBytes (ia : Option Word) : Nat → List Byte → State → Res Unit
  | _, [], s => .ok () s
  | addr, b :: bs, s => (memWrite ia addr b s).bind fun _ t => storeBytes ia (addr + 1) bs t

/-- Byte reads into registers in ascending address order, each checked on its own; those before the one that fails stand
(R63, R175). -/
def loadRegs (ia : Option Word) : Nat → List Reg → State → Res Unit
  | _, [], s => .ok () s
  | addr, r :: rs, s => (memRead ia addr s).bind fun b t => loadRegs ia (addr + 1) rs (t.setReg r b)

/-! ## Fetch, skip, call stack -/

/-- The rewind of a halted step: pc goes back to the FX0A, and `halted` stays (R101). -/
def rewind (s : State) : State := if s.halted then { s with pc := s.pc - 2 } else s

/-- The fetch: two checked byte reads at a and a + 1, big-endian, then pc becomes a + 2 mod 2^16; a fetch that faults does
not advance pc (R102). -/
def fetch (s : State) : Res Word :=
  (memRead (some s.pc) s.pc.toNat s).bind fun hi t =>
    (memRead (some s.pc) (s.pc.toNat + 1) t).bind fun lo u =>
      .ok (wordOfBytes hi lo) { u with pc := s.pc + 2 }

/-- The fault of a word that decodes to `Illegal`, raised after pc has been advanced (R103, R244). -/
def raiseDecodeError (w : Word) (s : State) : State := enterFault (.decodeError w s.instrAddr) s

/-- `pc <- trunc_16(pc + 2)` when the condition holds (R125). -/
def skipIf (c : Bool) (s : State) : State := if c then { s with pc := s.pc + 2 } else s

/-- `Push(v)` for a stack of the given depth, checked before the push (R123). -/
def pushWith (depth : Option Nat) (w : Word) (s : State) : Res Unit :=
  if depth = some s.stack.length then raise (.stackOverflow s.instrAddr) s
  else .ok () { s with stack := s.stack ++ [w] }

/-- `Push(v)` (R13, R36, R123). -/
def push (w : Word) (s : State) : Res Unit := pushWith Config.stackDepth w s

/-- `Pop()`, which faults on an empty stack (R13, R36, R120). -/
def pop (s : State) : Res Word :=
  match s.stack.getLast? with
  | some w => .ok w { s with stack := s.stack.dropLast }
  | none => raise (.stackUnderflow s.instrAddr) s

/-! ## Display -/

/-- `GetPixel(x, y)` (R13, R192). -/
def State.getPixel (s : State) (x : Col) (y : Row) : Bool := s.disp[x][y]

/-- `SetPixel(x, y, b)`: XORs b into the cell and answers whether it went from 1 to 0 (R13, R191). -/
def setPixel (x : Col) (y : Row) (b : Bool) (s : State) : State × Bool :=
  ({ s with disp := s.disp.set x (s.disp[x].set y (s.getPixel x y ^^ b)) }, s.getPixel x y && b)

/-- `ClearDisplay()` (R13, R192). -/
def clearDisplay (s : State) : State :=
  { s with disp := .replicate Config.displayW (.replicate Config.displayH false) }

/-! ## Keyboard -/

/-- `IsPressed(k)` (R13, R212). -/
def State.isPressed (s : State) (k : Key) : Bool := s.key[k]

/-- `press(k)` and `release(k)` (R211). -/
def State.setKey (s : State) (k : Key) (down : Bool) : State := { s with key := s.key.set k down }

/-- The lowest pressed key (R213). -/
def State.lowestPressed (s : State) : Option Key := (List.finRange 16).find? fun k => s.isPressed k

/-- `TakeAnyPressed()`, the consuming query: the lowest pressed key, which is released (R213). -/
def takeAnyPressed (s : State) : Option Key × State :=
  match s.lowestPressed with
  | some k => (some k, s.setKey k false)
  | none => (none, s)

/-! ## Random -/

/-- `Rand8()`: a fresh draw, free (R13, R158; log 3). -/
def rand8 (s : State) : Byte × State := (Config.randomByte s.draws, { s with draws := s.draws + 1 })

end Sys2Proof.Machine
end

