-- ==== Sys2Proof/Machine/Flags.lean ====
section
/-! DEFINITION. Every flag computation, VF being the only flag (spec/10_state.md R31, R44; spec/42_alu.md R154). -/

namespace Sys2Proof.Machine

/-- A flag as the byte VF holds: 1 or 0 (R154). -/
def flagByte (f : Bool) : Byte := if f then 1 else 0

/-- 8XY4: the unwrapped sum is 256 or more (R147). -/
def carryFlag (x y : Byte) : Bool := decide (256 ≤ x.toNat + y.toNat)

/-- 8XY5 and 8XY7: no borrow in `a - b` (R148, R150). -/
def noBorrowFlag (a b : Byte) : Bool := decide (b.toNat ≤ a.toNat)

/-- 8XY6: the bit shifted out on the right (R149). -/
def lsbFlag (y : Byte) : Bool := y.getLsbD 0

/-- 8XYE: the bit shifted out on the left (R151). -/
def msbFlag (y : Byte) : Bool := y.getLsbD 7

/-- `WriteResultAndFlag(X, r, f)` for either order of the two writes (R152). -/
def writeResultAndFlagWith (flagLast : Bool) (x : Reg) (r : Byte) (f : Bool) (s : State) : State :=
  if flagLast then (s.setReg x r).setReg VF (flagByte f) else (s.setReg VF (flagByte f)).setReg x r

/-- `WriteResultAndFlag(X, r, f)` (R152; log 7). -/
def writeResultAndFlag (x : Reg) (r : Byte) (f : Bool) (s : State) : State :=
  writeResultAndFlagWith Config.vfFlagLast x r f s

end Sys2Proof.Machine
end

