-- ==== Sys2Proof/Machine/Operands.lean ====
section
/-! DEFINITION. Every operand form: immediates, data addresses, coordinates, key numbers, register lists (spec/30_encoding.md R84,
spec/43_index_memory.md R176, spec/44_display.md R196, spec/45_keyboard.md R212). -/

namespace Sys2Proof.Machine

/-- `zext_16(NNN)` (R84). -/
def zext12 (nnn : Addr12) : Word := nnn.setWidth 16

/-- `zext_16(V[X])` (R10). -/
def zext8 (b : Byte) : Word := b.setWidth 16

/-- The byte address I, an exact integer from which I + k is counted without wrap (R62, R176). -/
def State.dataAddr (s : State) : Nat := s.i.toNat

/-- The registers V0 to VX in ascending order (R174, R175). -/
def regsUpTo (x : Reg) : List Reg := (List.finRange 16).take (x.val + 1)

/-- I after FX55 and FX65: `trunc_16(I + X + 1)` (R174, R175). -/
def State.advanceI (s : State) (x : Reg) : State := { s with i := s.i + BitVec.ofNat 16 (x.val + 1) }

/-- The decimal digits, hundreds, tens, ones (R173). -/
def bcdDigits (b : Byte) : List Byte := [b / 100, b / 10 % 10, b % 10]

/-- The address of the glyph of V[X], with no mask (R172). -/
def glyphAddr (b : Byte) : Word := zext8 b * BitVec.ofNat 16 Config.fontGlyphBytes

/-- The column of bit b of a sprite byte, `(V[X] + 7 - b) mod DISPLAY_W` in exact integers, bit 7 leftmost (R193, R196). -/
def pixelCol (vx : Byte) (b : Nat) : Col := Fin.ofNat Config.displayW (vx.toNat + 7 - b)

/-- The row of the running row counter, `y mod DISPLAY_H` (R193, R196). -/
def pixelRow (y : Byte) : Row := Fin.ofNat Config.displayH y.toNat

/-- The key V[X] names; none for 16 and more (R212). -/
def keyOf (b : Byte) : Option Key := if h : b.toNat < 16 then some ⟨b.toNat, h⟩ else none

/-- The key operand of EX9E and EXA1: V[X], or `KeyOutOfRange` (R214, R215; log 14). -/
def keyOperand (x : Reg) (s : State) : Res Key :=
  match keyOf (s.reg x) with
  | some k => .ok k s
  | none => raise (.keyOutOfRange (s.reg x) s.instrAddr) s

end Sys2Proof.Machine
end

