-- ==== Sys2Proof/Machine/Control.lean ====
section
/-! DEFINITION. Jumps, calls, returns and skips (spec/41_control_flow.md). -/

namespace Sys2Proof.Machine

/-- 00EE (R120). -/
def execRet (s : State) : Host.Outcome State Fault Refusal :=
  ((pop s).bind fun w t => .ok () { t with pc := w }).outcome

/-- 1NNN (R121). -/
def execJp (nnn : Addr12) (s : State) : Host.Outcome State Fault Refusal := .next { s with pc := zext12 nnn }

/-- 2NNN: pc is already the return address (R122). -/
def execCall (nnn : Addr12) (s : State) : Host.Outcome State Fault Refusal :=
  ((push s.pc s).bind fun _ t => .ok () { t with pc := zext12 nnn }).outcome

/-- 3XNN (R126). -/
def execSeImm (x : Reg) (nn : Byte) (s : State) : Host.Outcome State Fault Refusal := .next (skipIf (s.reg x == nn) s)

/-- 4XNN (R127). -/
def execSneImm (x : Reg) (nn : Byte) (s : State) : Host.Outcome State Fault Refusal := .next (skipIf (s.reg x != nn) s)

/-- 5XY0 (R128). -/
def execSeReg (x y : Reg) (s : State) : Host.Outcome State Fault Refusal := .next (skipIf (s.reg x == s.reg y) s)

/-- 9XY0 (R129). -/
def execSneReg (x y : Reg) (s : State) : Host.Outcome State Fault Refusal := .next (skipIf (s.reg x != s.reg y) s)

/-- BNNN: the register is always V0, and the sum is not reduced to 12 bits (R124). -/
def execJpV0 (nnn : Addr12) (s : State) : Host.Outcome State Fault Refusal :=
  .next { s with pc := zext12 nnn + zext8 (s.reg 0) }

end Sys2Proof.Machine
end

