-- ==== Sys2Proof/Machine/Display.lean ====
section
/-! DEFINITION. The display instructions (spec/44_display.md). -/

namespace Sys2Proof.Machine

/-- 00E0 (R195). -/
def execCls (s : State) : Host.Outcome State Fault Refusal := .next (clearDisplay s)

/-- The pixels of one sprite row from bit `b - 1` down to bit 0, with the collision so far (R193, R194). -/
def drawBits (vx : Byte) (row : Row) (byte : Byte) : Nat → State → Bool → State × Bool
  | 0, s, collided => (s, collided)
  | b + 1, s, collided =>
    match setPixel (pixelCol vx b) row (byte.getLsbD b) s with
    | (t, hit) => drawBits vx row byte b t (collided || hit)

/-- The rows of a sprite: each byte is read at the time of its row, the row counter wraps at 8 bits, and rows before a
faulting read stand (R193, R196, R63). -/
def drawRows (ia : Option Word) (vx : Byte) : Nat → Nat → Byte → Bool → State → Res Bool
  | 0, _, _, collided, s => .ok collided s
  | n + 1, addr, y, collided, s =>
    (memRead ia addr s).bind fun byte t =>
      match drawBits vx (pixelRow y) byte 8 t collided with
      | (u, c) => drawRows ia vx n (addr + 1) (y + 1) c u

/-- DXYN: VF is written once, after every pixel (R193, R194). -/
def execDrw (x y : Reg) (n : Nibble) (s : State) : Host.Outcome State Fault Refusal :=
  ((drawRows (some s.instrAddr) (s.reg x) n.toNat s.dataAddr (s.reg y) false s).bind fun collided t =>
    .ok () (t.setReg VF (flagByte collided))).outcome

end Sys2Proof.Machine
end

