-- ==== Sys2Proof/Machine/Index.lean ====
section
/-! DEFINITION. The index register and the memory transfers (spec/43_index_memory.md). -/

namespace Sys2Proof.Machine

/-- ANNN (R170). -/
def execLdI (nnn : Addr12) (s : State) : Host.Outcome State Fault Refusal := .next { s with i := zext12 nnn }

/-- FX1E: mod 2^16, VF not written (R171). -/
def execAddIVx (x : Reg) (s : State) : Host.Outcome State Fault Refusal := .next { s with i := s.i + zext8 (s.reg x) }

/-- FX29 (R172). -/
def execLdFVx (x : Reg) (s : State) : Host.Outcome State Fault Refusal := .next { s with i := glyphAddr (s.reg x) }

/-- FX33: hundreds, tens, ones at I, I + 1, I + 2; I is not changed (R173). -/
def execLdBVx (x : Reg) (s : State) : Host.Outcome State Fault Refusal :=
  (storeBytes (some s.instrAddr) s.dataAddr (bcdDigits (s.reg x)) s).outcome

/-- FX55: V0 to VX, ascending, then I advances (R174). -/
def execLdMemVx (x : Reg) (s : State) : Host.Outcome State Fault Refusal :=
  ((storeBytes (some s.instrAddr) s.dataAddr ((regsUpTo x).map s.reg) s).bind fun _ t => .ok () (t.advanceI x)).outcome

/-- FX65: V0 to VX, ascending, then I advances (R175). -/
def execLdVxMem (x : Reg) (s : State) : Host.Outcome State Fault Refusal :=
  ((loadRegs (some s.instrAddr) s.dataAddr (regsUpTo x) s).bind fun _ t => .ok () (t.advanceI x)).outcome

end Sys2Proof.Machine
end

