-- ==== Sys2Proof/Machine/Keyboard.lean ====
section
/-! DEFINITION. The key instructions (spec/45_keyboard.md). -/

namespace Sys2Proof.Machine

/-- EX9E: the key is not consumed (R214). -/
def execSkp (x : Reg) (s : State) : Host.Outcome State Fault Refusal :=
  ((keyOperand x s).bind fun k t => .ok () (skipIf (t.isPressed k) t)).outcome

/-- EXA1 (R215). -/
def execSknp (x : Reg) (s : State) : Host.Outcome State Fault Refusal :=
  ((keyOperand x s).bind fun k t => .ok () (skipIf (!t.isPressed k) t)).outcome

/-- FX0A: `halted` is set, and cleared again when the consuming query finds a key (R216, R217). -/
def execLdVxK (x : Reg) (s : State) : Host.Outcome State Fault Refusal :=
  match takeAnyPressed { s with halted := true } with
  | (some k, t) => .next ({ t with halted := false }.setReg x (BitVec.ofNat 8 k.val))
  | (none, t) => .next t

end Sys2Proof.Machine
end

