-- ==== Sys2Proof/Machine/Step.lean ====
section
/-! DEFINITION. One STEP (spec/40_execution_cycle.md R100), and placing an instruction where the next step fetches it. -/

namespace Sys2Proof.Machine

/-- `Step()` of R100. A faulted core answers its recorded fault and changes nothing (R242); otherwise a halted core rewinds
(R101), the word is fetched (R102), decoded (R103) and executed (R104). A fault raised in the step is in the next state (log 1). -/
def step (s : State) : Host.Outcome State Fault Refusal :=
  match s.fault with
  | some f => .fault f
  | none =>
    match fetch (rewind s) with
    | .raised t => .next t
    | .ok w t =>
      match decodeWord w with
      | .error _ => .next (raiseDecodeError w t)
      | .ok i => exec i t

/-- The state with the instruction of a table word stored where `step` fetches: at pc, or two below it on a halted core.
It stands for the program load of R74 (log 17); `step` fetches it when the core is not faulted and both bytes are inside memory. -/
def State.withFetchWord (s : State) (nbits w : Nat) : State :=
  { s with
    mem :=
      (s.mem.place (rewind s).pc.toNat (highByte (tableWord nbits w))).place ((rewind s).pc.toNat + 1)
        (lowByte (tableWord nbits w)) }

end Sys2Proof.Machine
end

