-- ==== Sys2Proof/Machine/HostOps.lean ====
section
/-! DEFINITION. The host's seven operations, each atomic, and the reference frame (spec/60_exceptions.md R250 to R257,
spec/70_reset_and_hazards.md R270). `step` alone is STEP; a run of the hardware interleaves it with these (log 2). -/

namespace Sys2Proof.Machine

/-- The operations of R250. The index and the coordinates are in range by their types (R211, R250; log 15). -/
inductive HostOp where
  | reset (program : List Byte)
  | step
  | tick
  | keyDown (k : Key)
  | keyUp (k : Key)
  | readPixel (x : Col) (y : Row)
  | readStatus
deriving DecidableEq, Repr

/-- What an operation answers to the host: a fault exactly where R241 and R242 say the operation returns one. -/
inductive Response where
  /-- STEP or RESET completed, or an operation that answers nothing was done -/
  | ok
  /-- the operation raised this fault, or STEP met a faulted core (R241, R242) -/
  | fault (f : Fault)
  /-- READ_PIXEL (R255) -/
  | pixel (b : Bool)
  /-- READ_STATUS: faulted, the record, halted (R251) -/
  | status (faulted : Bool) (record : Option Fault) (halted : Bool)
  /-- STEP refused by `exec`; no arm of `exec` is left that refuses -/
  | refused (r : Refusal)
deriving DecidableEq, Repr

/-- An operation that ends in a state without or with a fault answers `ok` or that fault (R106, R241). -/
def State.response (s : State) : Response :=
  match s.fault with
  | some f => .fault f
  | none => .ok

/-- `loadProgram(p)`: one byte per address from 0x200, no bound check of its own (R74). No instruction is executing. -/
def loadProgram (p : List Byte) (s : State) : State :=
  match storeBytes none Config.progBase p s with
  | .ok _ t => t
  | .raised t => t

/-- `RESET(program)`: every piece of state to its reset value, then the load (R270). The count of random draws goes on, so
that the draws after a RESET stay free (log 3). -/
def resetWith (p : List Byte) (s : State) : State := loadProgram p { State.reset with draws := s.draws }

/-- A timer's decrement, clamped at zero (R252). -/
def decrement (b : Byte) : Byte := if b = 0 then 0 else b - 1

/-- `TICK` for either value of `SOUND_TIMER_DECAYS` (R252, R253); no effect on a faulted core (R242). -/
def tickWith (soundDecays : Bool) (s : State) : State :=
  if s.faulted then s
  else { s with dt := decrement s.dt, st := if soundDecays then decrement s.st else s.st }

/-- `TICK` (R252, R253; log 9). -/
def tick (s : State) : State := tickWith Config.soundTimerDecays s

/-- `KEY_DOWN(k)` and `KEY_UP(k)` (R211, R254); no effect on a faulted core (R242; log 20). -/
def keyEvent (k : Key) (down : Bool) (s : State) : State := if s.faulted then s else s.setKey k down

/-- `STEP` as an operation: the state it leaves and what it returns (R100, R106, R241, R242). -/
def stepOp (s : State) : State × Response :=
  match step s with
  | .next t => (t, t.response)
  | .fault f => (s, .fault f)
  | .refused r => (s, .refused r)

/-- Each operation runs to completion before the next begins (R250). -/
def operate : HostOp → State → State × Response
  | .reset p, s => (resetWith p s, (resetWith p s).response)
  | .step, s => stepOp s
  | .tick, s => (tick s, .ok)
  | .keyDown k, s => (keyEvent k true s, .ok)
  | .keyUp k, s => (keyEvent k false s, .ok)
  | .readPixel x y, s => (s, .pixel (s.getPixel x y))
  | .readStatus, s => (s, .status s.faulted s.fault s.halted)

/-- The state after a sequence of operations, one at a time (R250). -/
def runOps : List HostOp → State → State
  | [], s => s
  | o :: os, s => runOps os (operate o s).1

/-- The instruction batch of a frame: at most n steps, stopping at the first that returns a fault (R256). -/
def stepBatch : Nat → State → State × Response
  | 0, s => (s, .ok)
  | n + 1, s =>
    match stepOp s with
    | (t, .ok) => stepBatch n t
    | (t, r) => (t, r)

/-- A key event of the host's input collaborator (R254). -/
structure KeyEvent where
  key : Key
  down : Bool
deriving DecidableEq, Repr

/-- The events of one delivery window, in order, with no queueing beyond the booleans (R254). -/
def deliver : List KeyEvent → State → State
  | [], s => s
  | e :: es, s => deliver es (keyEvent e.key e.down s)

/-- `Frame()` for a given number of steps: TICK, the key events, the batch (R256). The quit check and the presentation are
outside the core (R6; log 21). -/
def frameWith (steps : Nat) (events : List KeyEvent) (s : State) : State × Response :=
  stepBatch steps (deliver events (tick s))

/-- `Frame()` (R256). -/
def frame (events : List KeyEvent) (s : State) : State × Response := frameWith Config.stepsPerFrame events s

/-- The full readout of the display grid that the presentation consumes (R255). -/
def readout (s : State) : Vector (Vector Bool Config.displayH) Config.displayW :=
  Vector.ofFn fun x => Vector.ofFn fun y => s.getPixel x y

end Sys2Proof.Machine
end

