-- ==== Sys2Proof/Safety.lean ====
section
/-! DEFINITION. What counts as a safe run, the invariant of the machine, and the frames the statements speak of. -/

namespace Sys2Proof.Machine

/-! ## Safe runs -/

/-- A STEP that returns Ok: it answers a next state that records no fault (R106; log 1). A next state alone is not Ok. -/
abbrev OkStep (s t : State) : Prop := step s = .next t ∧ t.fault = none

/-- n STEPs that all return Ok. -/
def OkRun : Nat → State → State → Prop
  | 0, s, t => s = t ∧ s.fault = none
  | n + 1, s, t => ∃ u, OkStep s u ∧ OkRun n u t

/-! ## The invariant -/

/-- Where the next STEP fetches: pc, or two below it on a halted core (R101). -/
def State.fetchAddr (s : State) : Word := if s.halted then s.pc - 2 else s.pc

/-- The two bytes at an address, as an instruction word (R64). -/
def State.wordAt (s : State) (a : Word) : Word := wordOfBytes (s.mem.read a.toNat) (s.mem.read (a.toNat + 1))

/-- The FX0A for register X lies two below pc, inside memory (R105). -/
abbrev State.fx0aBefore (s : State) (x : Reg) : Prop :=
  (s.pc - 2).toNat + 1 < Config.memSize ∧ s.wordAt (s.pc - 2) = encode (.ldVxK x)

/-- While halted, the word two below pc is an FX0A (R105). -/
abbrev State.awaitsFX0A (s : State) : Prop := s.halted = true → ∃ x, s.fx0aBefore x

/-- The invariant every step and every host operation keeps: memory is canonical, and R105. -/
abbrev State.Inv (s : State) : Prop := s.mem.wf = true ∧ s.awaitsFX0A

/-! ## Frames -/

/-- Nothing but the general registers differs, so that pc, I, the stack, the timers, `halted`, the display, the keys, every
byte of memory and the fault record are as before. -/
def OnlyRegs (s t : State) : Prop := t = { s with v := t.v }

/-- One general register is written, and nothing else. -/
def WritesReg (x : Reg) (b : Byte) (s t : State) : Prop :=
  OnlyRegs s t ∧ t.reg x = b ∧ ∀ r, r ≠ x → t.reg r = s.reg r

/-- The result goes to V[X] and the flag to VF, which ends as the flag when X = F, and nothing else is written. -/
def WritesRegAndFlag (x : Reg) (b : Byte) (f : Prop) [Decidable f] (s t : State) : Prop :=
  OnlyRegs s t ∧ t.reg VF = (if f then 1 else 0) ∧ (x ≠ VF → t.reg x = b) ∧
    ∀ r, r ≠ x → r ≠ VF → t.reg r = s.reg r

/-- The registers an instruction may write (R31, R32). -/
def mayWriteReg (i : Instr) (r : Reg) : Prop :=
  match i with
  | .ldImm x _ | .addImm x _ | .ldReg x _ | .orReg x _ | .andReg x _ | .xorReg x _ | .rnd x _ | .ldVxDT x | .ldVxK x => r = x
  | .addReg x _ | .sub x _ | .shr x _ | .subn x _ | .shl x _ => r = x ∨ r = VF
  | .drw _ _ _ => r = VF
  | .ldVxMem x => r ≤ x
  | .cls | .ret | .jp _ | .call _ | .seImm _ _ | .sneImm _ _ | .seReg _ _ | .sneReg _ _ | .ldI _ | .jpV0 _ | .skp _ | .sknp _
  | .ldDTVx _ | .ldSTVx _ | .addIVx _ | .ldFVx _ | .ldBVx _ | .ldMemVx _ => False

/-- The fault an instruction may raise on the state after its fetch, with the record of R240; the address of the instruction is
pc - 2 (R33). -/
def mayRaise (i : Instr) (s : State) (f : Fault) : Prop :=
  match i with
  | .ret => s.stack = [] ∧ f = .stackUnderflow (s.pc - 2)
  | .skp x | .sknp x => 16 ≤ (s.reg x).toNat ∧ f = .keyOutOfRange (s.reg x) (s.pc - 2)
  | .drw _ _ _ | .ldVxMem _ => f = .memoryOutOfBounds (max s.dataAddr 4096) .read (some (s.pc - 2))
  | .ldBVx _ | .ldMemVx _ => f = .memoryOutOfBounds (max s.dataAddr 4096) .write (some (s.pc - 2))
  | .cls | .jp _ | .call _ | .seImm _ _ | .sneImm _ _ | .seReg _ _ | .sneReg _ _ | .ldImm _ _ | .addImm _ _ | .ldReg _ _
  | .orReg _ _ | .andReg _ _ | .xorReg _ _ | .addReg _ _ | .sub _ _ | .shr _ _ | .subn _ _ | .shl _ _ | .ldI _ | .jpV0 _
  | .rnd _ _ | .ldVxDT _ | .ldVxK _ | .ldDTVx _ | .ldSTVx _ | .addIVx _ | .ldFVx _ => False

/-! ## Sprites -/

/-- The bit of an n-row sprite at I that lands on a cell, by the coordinates of R196: the cell lies `dx` columns right of
V[X] mod 64 and `dy` rows below V[Y] mod 32, and takes bit 7 - dx of the byte at I + dy. -/
def State.spriteBit (s : State) (vx vy : Byte) (n : Nat) (cx : Col) (cy : Row) : Bool :=
  let dx := (cx.val + 64 - vx.toNat % 64) % 64
  let dy := (cy.val + 32 - vy.toNat % 32) % 32
  decide (dx < 8) && decide (dy < n) && (s.mem.read (s.i.toNat + dy)).getLsbD (7 - dx)

end Sys2Proof.Machine
end

