-- ==== Sys2Proof/Certificates/Slice0/Obligations.lean ====
section
/-! DEFINITION. The statements for the provers, from the numbered rules of spec/. `exec i s` is given the state after the
fetch, so `s.pc` is the address of the instruction + 2 (R33). An equation `t = { s with f := t.f }` is a frame: every other
piece of state, every byte of memory among them, is as before. -/

open Sys2Proof Sys2Proof.Machine

/-! ## The execution cycle and faults -/

/-- R100 to R104: a core that is not faulted executes the instruction its word decodes to, on the state whose pc is the
fetch address + 2; a halted core fetches two below pc. -/
def Obligations.StepRunsDecodedInstruction : Prop :=
  ∀ (s : State) (i : Instr), s.fault = none → s.fetchAddr.toNat + 1 < 4096 →
    decodeWord (s.wordAt s.fetchAddr) = .ok i → step s = exec i { s with pc := s.fetchAddr + 2 }

/-- R81: the word is `mem[pc] : mem[pc+1]`, the byte at the lower address in bits 15 to 8. -/
def Obligations.FetchIsBigEndian : Prop :=
  ∀ s : State, s.pc.toNat + 1 < 4096 →
    ∃ w t, fetch s = .ok w t ∧ w.toNat = (s.mem.read s.pc.toNat).toNat * 256 + (s.mem.read (s.pc.toNat + 1)).toNat ∧
      w.extractLsb' 8 8 = s.mem.read s.pc.toNat ∧ t = { s with pc := s.pc + 2 }

/-- "A fetch with a >= 0x1000 faults on the first read. A fetch with a = 0xFFF faults on the second read" (R102). That pc is
not advanced is the spec's own decision D21 (log 11). -/
def Obligations.FetchOutsideMemoryFaults : Prop :=
  ∀ s : State, s.fault = none →
    (4096 ≤ s.fetchAddr.toNat → step s = .next { s with
      pc := s.fetchAddr, fault := some (.memoryOutOfBounds s.fetchAddr.toNat .read (some s.fetchAddr)) }) ∧
    (s.fetchAddr.toNat = 4095 → step s = .next { s with
      pc := s.fetchAddr, fault := some (.memoryOutOfBounds 4096 .read (some s.fetchAddr)) })

/-- A word that decodes to Illegal raises DecodeError with the word and its address, after pc has been advanced, and no other
state changes (R103, by the spec's decision D21; log 11). -/
def Obligations.IllegalWordFaultsAfterAdvance : Prop :=
  ∀ (s : State) (r : Reject), s.fault = none → s.fetchAddr.toNat + 1 < 4096 →
    decodeWord (s.wordAt s.fetchAddr) = .error r →
    step s = .next { s with
      pc := s.fetchAddr + 2, fault := some (.decodeError (s.wordAt s.fetchAddr) s.fetchAddr) }

/-- A faulted core is terminal (R242, the spec's decisions D3 and D24; log 1, log 20): STEP returns the record, TICK and key
operations do nothing, the readouts answer, and a RESET whose program fits clears the fault. -/
def Obligations.FaultedCoreIsTerminal : Prop :=
  ∀ (s : State) (f : Fault), s.fault = some f →
    step s = .fault f ∧ operate .step s = (s, .fault f) ∧ operate .tick s = (s, .ok) ∧
    (∀ k, operate (.keyDown k) s = (s, .ok) ∧ operate (.keyUp k) s = (s, .ok)) ∧
    (∀ x y, operate (.readPixel x y) s = (s, .pixel s.disp[x][y])) ∧
    operate .readStatus s = (s, .status true (some f) s.halted) ∧
    ∀ p, p.length ≤ 3584 → (operate (.reset p) s).1.fault = none

/-- The AwaitingKey rows of R217, with the rewind of R101 (the reading of decision D22; log 16): a halted step re-executes the
FX0A; with no key pressed nothing changes, and with a key pressed the lowest is taken into V[X] and the core runs again. -/
def Obligations.AwaitingKeyStepPollsAgain : Prop :=
  ∀ (s : State) (x : Reg), s.fault = none → s.halted = true → s.fx0aBefore x →
    ((∀ k : Key, s.key[k] = false) → step s = .next s) ∧
    ∀ k : Key, s.key[k] = true → (∀ j : Key, j < k → s.key[j] = false) →
      ∃ t, step s = .next t ∧ t = { s with v := t.v, key := t.key, halted := false } ∧
        t.reg x = BitVec.ofNat 8 k.val ∧ (∀ r, r ≠ x → t.reg r = s.reg r) ∧
        t.key[k] = false ∧ ∀ j : Key, j ≠ k → t.key[j] = s.key[j]

/-- R104 and R241: whatever the instruction, the state and the operands, executing it answers a next state (the form of log 1).
The fault record of that state is the one before, or the record that R240 gives the fault this instruction may raise. -/
def Obligations.ExecAlwaysAnswersNext : Prop :=
  ∀ (i : Instr) (s : State), ∃ t, exec i s = .next t ∧ (t.fault = s.fault ∨ ∃ f, mayRaise i s f ∧ t.fault = some f)

/-! ## Encoding -/

/-- Decoding the encoded instruction gives it back, for every instruction with every operand at every value. -/
def Obligations.DecodeEncodeRoundTrip : Prop :=
  ∀ i : Instr, i.wellFormed = true ∧ decodeWord (encode i) = .ok i ∧ decode (bytesOfWord (encode i)) = .ok (i, [])

/-- Encoding what a word decodes to gives the word back: no field is "don't care" (R90, an inference of the spec). -/
def Obligations.EncodeDecodeRoundTrip : Prop :=
  ∀ (w : Word) (i : Instr), decodeWord w = .ok i → encode i = w

/-- R87, an inference of the spec: every word fits at most one row of the table, and the words that fit none are exactly those
that decode to Illegal. -/
def Obligations.DecoderAcceptsExactlyTableWords : Prop :=
  (∀ w r q, r ∈ opcodeTable → q ∈ opcodeTable → r.fits w = true → q.fits w = true → r = q) ∧
  ∀ w, legalWord w = true ↔ ∃ i, decodeWord w = .ok i

/-- The six families of illegal words of R88, an inference of the spec from R86. -/
def Obligations.IllegalWordsAreTheSixFamilies : Prop :=
  ∀ w : Word, (∃ r, decodeWord w = .error r) ↔
    (w.toNat < 0x1000 ∧ w ≠ 0x00E0 ∧ w ≠ 0x00EE) ∨
    (w.toNat / 0x1000 = 0x5 ∧ w.toNat % 16 ≠ 0) ∨
    (w.toNat / 0x1000 = 0x8 ∧ (8 ≤ w.toNat % 16 ∧ w.toNat % 16 ≠ 0xE)) ∨
    (w.toNat / 0x1000 = 0x9 ∧ w.toNat % 16 ≠ 0) ∨
    (w.toNat / 0x1000 = 0xE ∧ w.toNat % 256 ∉ [0x9E, 0xA1]) ∨
    (w.toNat / 0x1000 = 0xF ∧ w.toNat % 256 ∉ [0x07, 0x0A, 0x15, 0x18, 0x1E, 0x29, 0x33, 0x55, 0x65])

/-- A few words of the table's rows decode to the instruction they stand for. -/
def Obligations.SampleWordsDecode : Prop :=
  decodeWord 0x00E0 = .ok .cls ∧ decodeWord 0x1234 = .ok (.jp 0x234) ∧ decodeWord 0x6A7F = .ok (.ldImm 0xA 0x7F) ∧
  decodeWord 0x8126 = .ok (.shr 1 2) ∧ decodeWord 0xD015 = .ok (.drw 0 1 5) ∧ decodeWord 0xE19E = .ok (.skp 1) ∧
  decodeWord 0xF30A = .ok (.ldVxK 3) ∧ decodeWord 0xF265 = .ok (.ldVxMem 2)

/-! ## Control transfer -/

/-- R120: RET pops into pc; on an empty stack it raises StackUnderflow with the instruction's address, and pc stays a + 2. -/
def Obligations.ReturnPopsCallStack : Prop :=
  encode .ret = 0x00EE ∧
  ∀ s : State,
    (∀ st w, s.stack = st ++ [w] → exec .ret s = .next { s with pc := w, stack := st }) ∧
    (s.stack = [] → exec .ret s = .next { s with fault := some (.stackUnderflow (s.pc - 2)) })

/-- R121: JP writes the zero-extended NNN to pc. -/
def Obligations.JumpSetsPc : Prop :=
  ∀ (nnn : Addr12) (s : State), (encode (.jp nnn)).toNat = 0x1000 + nnn.toNat ∧
    ∃ t, exec (.jp nnn) s = .next t ∧ t = { s with pc := t.pc } ∧ t.pc.toNat = nnn.toNat

/-- R122: CALL pushes pc, already a + 2, and jumps; no fault for this hardware's unbounded stack, and no memory is written. -/
def Obligations.CallPushesReturnAddress : Prop :=
  ∀ (nnn : Addr12) (s : State), (encode (.call nnn)).toNat = 0x2000 + nnn.toNat ∧
    ∃ t, exec (.call nnn) s = .next t ∧ t = { s with pc := t.pc, stack := t.stack } ∧
      t.pc.toNat = nnn.toNat ∧ t.stack = s.stack ++ [s.pc]

/-- R123, the spec's decision D7 (log 8): a push on a stack of finite depth faults when the stack is full and leaves it
unchanged; an unbounded stack always takes the push. -/
def Obligations.BoundedStackOverflows : Prop :=
  ∀ (w : Word) (s : State),
    (∀ d, d = s.stack.length → pushWith (some d) w s = .raised { s with fault := some (.stackOverflow (s.pc - 2)) }) ∧
    (∀ d, d ≠ s.stack.length → pushWith (some d) w s = .ok () { s with stack := s.stack ++ [w] }) ∧
    pushWith none w s = .ok () { s with stack := s.stack ++ [w] } ∧ push w s = pushWith none w s

/-- R124: the target is NNN + V0, whatever the bits that would name X, and is not reduced to 12 bits. -/
def Obligations.JumpWithOffset : Prop :=
  ∀ (nnn : Addr12) (s : State), (encode (.jpV0 nnn)).toNat = 0xB000 + nnn.toNat ∧
    ∃ t, exec (.jpV0 nnn) s = .next t ∧ t = { s with pc := t.pc } ∧ t.pc.toNat = nnn.toNat + (s.reg 0).toNat

/-- R126 and R127: SE and SNE with an immediate add 2 to pc on their condition and change nothing else. -/
def Obligations.SkipsOnImmediate : Prop :=
  ∀ (x : Reg) (nn : Byte) (s : State),
    (encode (.seImm x nn)).toNat = 0x3000 + x.val * 256 + nn.toNat ∧
    (encode (.sneImm x nn)).toNat = 0x4000 + x.val * 256 + nn.toNat ∧
    exec (.seImm x nn) s = .next (if s.reg x = nn then { s with pc := s.pc + 2 } else s) ∧
    exec (.sneImm x nn) s = .next (if s.reg x = nn then s else { s with pc := s.pc + 2 })

/-- R128 and R129: SE and SNE of two registers add 2 to pc on their condition and change nothing else; a word whose low
nibble is not 0 decodes to no instruction. -/
def Obligations.SkipsOnRegisters : Prop :=
  ∀ (x y : Reg) (s : State),
    (encode (.seReg x y)).toNat = 0x5000 + x.val * 256 + y.val * 16 ∧
    (encode (.sneReg x y)).toNat = 0x9000 + x.val * 256 + y.val * 16 ∧
    exec (.seReg x y) s = .next (if s.reg x = s.reg y then { s with pc := s.pc + 2 } else s) ∧
    exec (.sneReg x y) s = .next (if s.reg x = s.reg y then s else { s with pc := s.pc + 2 }) ∧
    ∀ n : Nibble, n ≠ 0 → ∃ r q, decodeWord (fmtRRS 0x5 x y n) = .error r ∧ decodeWord (fmtRRS 0x9 x y n) = .error q

/-! ## Loads, ALU, random -/

/-- R141: V[X] becomes NN. -/
def Obligations.LoadImmediate : Prop :=
  ∀ (x : Reg) (nn : Byte) (s : State), (encode (.ldImm x nn)).toNat = 0x6000 + x.val * 256 + nn.toNat ∧
    ∃ t, exec (.ldImm x nn) s = .next t ∧ WritesReg x nn s t

/-- R142: V[X] + NN mod 256; VF is written only as V[X]. -/
def Obligations.AddImmediateWraps : Prop :=
  ∀ (x : Reg) (nn : Byte) (s : State), (encode (.addImm x nn)).toNat = 0x7000 + x.val * 256 + nn.toNat ∧
    ∃ t, exec (.addImm x nn) s = .next t ∧ WritesReg x (BitVec.ofNat 8 ((s.reg x).toNat + nn.toNat)) s t

/-- R143: V[X] becomes V[Y]. -/
def Obligations.CopyRegister : Prop :=
  ∀ (x y : Reg) (s : State), (encode (.ldReg x y)).toNat = 0x8000 + x.val * 256 + y.val * 16 ∧
    ∃ t, exec (.ldReg x y) s = .next t ∧ WritesReg x (s.reg y) s t

/-- R144, R145, R146: OR, AND and XOR of V[X] and V[Y] into V[X]; VF is not reset. -/
def Obligations.BitwiseOperations : Prop :=
  ∀ (x y : Reg) (s : State),
    (encode (.orReg x y)).toNat = 0x8001 + x.val * 256 + y.val * 16 ∧
    (encode (.andReg x y)).toNat = 0x8002 + x.val * 256 + y.val * 16 ∧
    (encode (.xorReg x y)).toNat = 0x8003 + x.val * 256 + y.val * 16 ∧
    (∃ t, exec (.orReg x y) s = .next t ∧ WritesReg x (s.reg x ||| s.reg y) s t) ∧
    (∃ t, exec (.andReg x y) s = .next t ∧ WritesReg x (s.reg x &&& s.reg y) s t) ∧
    (∃ t, exec (.xorReg x y) s = .next t ∧ WritesReg x (s.reg x ^^^ s.reg y) s t)

/-- R147: the sum mod 256, VF the carry; with X = F, VF ends as the carry. -/
def Obligations.AddSetsCarry : Prop :=
  ∀ (x y : Reg) (s : State), (encode (.addReg x y)).toNat = 0x8004 + x.val * 256 + y.val * 16 ∧
    ∃ t, exec (.addReg x y) s = .next t ∧
      WritesRegAndFlag x (BitVec.ofNat 8 ((s.reg x).toNat + (s.reg y).toNat)) (256 ≤ (s.reg x).toNat + (s.reg y).toNat) s t

/-- R148: V[X] - V[Y] mod 256, VF = 1 when there is no borrow. -/
def Obligations.SubtractSetsNotBorrow : Prop :=
  ∀ (x y : Reg) (s : State), (encode (.sub x y)).toNat = 0x8005 + x.val * 256 + y.val * 16 ∧
    ∃ t, exec (.sub x y) s = .next t ∧
      WritesRegAndFlag x (BitVec.ofNat 8 ((s.reg x).toNat + 256 - (s.reg y).toNat)) ((s.reg y).toNat ≤ (s.reg x).toNat) s t

/-- R149: V[Y] shifted right by one into V[X], VF the old bit 0 of V[Y]. -/
def Obligations.ShiftRightSetsLowBit : Prop :=
  ∀ (x y : Reg) (s : State), (encode (.shr x y)).toNat = 0x8006 + x.val * 256 + y.val * 16 ∧
    ∃ t, exec (.shr x y) s = .next t ∧
      WritesRegAndFlag x (BitVec.ofNat 8 ((s.reg y).toNat / 2)) ((s.reg y).toNat % 2 = 1) s t

/-- R150: V[Y] - V[X] mod 256, VF = 1 when there is no borrow. -/
def Obligations.ReverseSubtractSetsNotBorrow : Prop :=
  ∀ (x y : Reg) (s : State), (encode (.subn x y)).toNat = 0x8007 + x.val * 256 + y.val * 16 ∧
    ∃ t, exec (.subn x y) s = .next t ∧
      WritesRegAndFlag x (BitVec.ofNat 8 ((s.reg y).toNat + 256 - (s.reg x).toNat)) ((s.reg x).toNat ≤ (s.reg y).toNat) s t

/-- R151: V[Y] shifted left by one into V[X], VF the old bit 7 of V[Y]. -/
def Obligations.ShiftLeftSetsHighBit : Prop :=
  ∀ (x y : Reg) (s : State), (encode (.shl x y)).toNat = 0x800E + x.val * 256 + y.val * 16 ∧
    ∃ t, exec (.shl x y) s = .next t ∧
      WritesRegAndFlag x (BitVec.ofNat 8 ((s.reg y).toNat * 2)) (128 ≤ (s.reg y).toNat) s t

/-- R152, the spec's decision D6 (log 7): with the flag written last VF ends as the flag; with the other order VF ends as the
result when X = F; for X other than F the order changes nothing; this hardware writes the flag last. -/
def Obligations.FlagWrittenLast : Prop :=
  ∀ (x : Reg) (r : Byte) (f : Bool) (s : State),
    (writeResultAndFlagWith true x r f s).reg VF = (if f then 1 else 0) ∧
    (writeResultAndFlagWith false VF r f s).reg VF = r ∧
    (x ≠ VF → writeResultAndFlagWith true x r f s = writeResultAndFlagWith false x r f s ∧
      (writeResultAndFlagWith true x r f s).reg x = r) ∧
    writeResultAndFlag x r f s = writeResultAndFlagWith true x r f s

/-- R157: V[X] becomes the draw AND NN. The draw is a free value in the model's own form (R158, decision D15; log 3): the
statement holds whatever byte it is, and so NN = 0 always gives 0. -/
def Obligations.RandomByteIsMasked : Prop :=
  ∀ (x : Reg) (nn : Byte) (s : State), (encode (.rnd x nn)).toNat = 0xC000 + x.val * 256 + nn.toNat ∧
    ∃ t, exec (.rnd x nn) s = .next t ∧ t = { s with v := t.v, draws := s.draws + 1 } ∧
      t.reg x = Config.randomByte s.draws &&& nn ∧ (nn = 0 → t.reg x = 0) ∧ ∀ r, r ≠ x → t.reg r = s.reg r

/-! ## Index register and memory transfers -/

/-- R170: I becomes the zero-extended NNN. -/
def Obligations.LoadIndex : Prop :=
  ∀ (nnn : Addr12) (s : State), (encode (.ldI nnn)).toNat = 0xA000 + nnn.toNat ∧
    ∃ t, exec (.ldI nnn) s = .next t ∧ t = { s with i := t.i } ∧ t.i.toNat = nnn.toNat

/-- R171: I + V[X] mod 2^16; VF is not written. -/
def Obligations.AddToIndexWraps : Prop :=
  ∀ (x : Reg) (s : State), (encode (.addIVx x)).toNat = 0xF01E + x.val * 256 ∧
    ∃ t, exec (.addIVx x) s = .next t ∧ t = { s with i := t.i } ∧ t.i.toNat = (s.i.toNat + (s.reg x).toNat) % 65536

/-- R172: I becomes V[X] * 5, with no mask. -/
def Obligations.PointAtGlyph : Prop :=
  ∀ (x : Reg) (s : State), (encode (.ldFVx x)).toNat = 0xF029 + x.val * 256 ∧
    ∃ t, exec (.ldFVx x) s = .next t ∧ t = { s with i := t.i } ∧ t.i.toNat = (s.reg x).toNat * 5

/-- R173: the three decimal digits of V[X] at I, I + 1, I + 2, with I unchanged; where one lies past memory, the digits before
it are written and the first address past memory is reported. -/
def Obligations.StoreDecimalDigits : Prop :=
  ∀ (x : Reg) (s : State), s.mem.wf = true →
    (encode (.ldBVx x)).toNat = 0xF033 + x.val * 256 ∧
    let b := (s.reg x).toNat
    let digit : Nat → Byte := fun j => BitVec.ofNat 8 (if j = 0 then b / 100 else if j = 1 then b / 10 % 10 else b % 10)
    (s.dataAddr + 3 ≤ 4096 →
      ∃ t, exec (.ldBVx x) s = .next t ∧ t = { s with mem := t.mem } ∧
        (∀ j, j < 3 → t.mem.read (s.dataAddr + j) = digit j) ∧
        ∀ a, (a < s.dataAddr ∨ s.dataAddr + 3 ≤ a) → t.mem.read a = s.mem.read a) ∧
    (4096 < s.dataAddr + 3 →
      ∃ t, exec (.ldBVx x) s = .next t ∧
        t = { s with mem := t.mem, fault := some (.memoryOutOfBounds (max s.dataAddr 4096) .write (some (s.pc - 2))) } ∧
        (∀ j, j < 3 → s.dataAddr + j < 4096 → t.mem.read (s.dataAddr + j) = digit j) ∧
        ∀ a, (a < s.dataAddr ∨ 4096 ≤ a) → t.mem.read a = s.mem.read a)

/-- R174: V0 to VX at I onwards, then I advances by X + 1; where one lies past memory, the registers before it are stored, I is
not updated and the first address past memory is reported. -/
def Obligations.StoreRegistersAdvancesIndex : Prop :=
  ∀ (x : Reg) (s : State), s.mem.wf = true →
    (encode (.ldMemVx x)).toNat = 0xF055 + x.val * 256 ∧
    (s.dataAddr + x.val + 1 ≤ 4096 →
      ∃ t, exec (.ldMemVx x) s = .next t ∧ t = { s with mem := t.mem, i := t.i } ∧
        t.i.toNat = s.dataAddr + x.val + 1 ∧
        (∀ k : Reg, k ≤ x → t.mem.read (s.dataAddr + k.val) = s.reg k) ∧
        ∀ a, (a < s.dataAddr ∨ s.dataAddr + x.val + 1 ≤ a) → t.mem.read a = s.mem.read a) ∧
    (4096 < s.dataAddr + x.val + 1 →
      ∃ t, exec (.ldMemVx x) s = .next t ∧
        t = { s with mem := t.mem, fault := some (.memoryOutOfBounds (max s.dataAddr 4096) .write (some (s.pc - 2))) } ∧
        (∀ k : Reg, k ≤ x → s.dataAddr + k.val < 4096 → t.mem.read (s.dataAddr + k.val) = s.reg k) ∧
        ∀ a, (a < s.dataAddr ∨ 4096 ≤ a) → t.mem.read a = s.mem.read a)

/-- R175: V0 to VX from I onwards, then I advances by X + 1; where one lies past memory, the registers before it keep what they
loaded, I is not updated and the first address past memory is reported. -/
def Obligations.LoadRegistersAdvancesIndex : Prop :=
  ∀ (x : Reg) (s : State),
    (encode (.ldVxMem x)).toNat = 0xF065 + x.val * 256 ∧
    (s.dataAddr + x.val + 1 ≤ 4096 →
      ∃ t, exec (.ldVxMem x) s = .next t ∧ t = { s with v := t.v, i := t.i } ∧
        t.i.toNat = s.dataAddr + x.val + 1 ∧
        (∀ k : Reg, k ≤ x → t.reg k = s.mem.read (s.dataAddr + k.val)) ∧
        ∀ k : Reg, x < k → t.reg k = s.reg k) ∧
    (4096 < s.dataAddr + x.val + 1 →
      ∃ t, exec (.ldVxMem x) s = .next t ∧
        t = { s with v := t.v, fault := some (.memoryOutOfBounds (max s.dataAddr 4096) .read (some (s.pc - 2))) } ∧
        (∀ k : Reg, k ≤ x → s.dataAddr + k.val < 4096 → t.reg k = s.mem.read (s.dataAddr + k.val)) ∧
        ∀ k : Reg, (x < k ∨ 4096 ≤ s.dataAddr + k.val) → t.reg k = s.reg k)

/-- FX55 and then FX65 with the same X and the same I restores V0 to VX, whatever ran between that left the stored memory alone
(the property of vector S5 as R175 and conflict C8 read it). -/
def Obligations.StoreThenLoadRestoresRegisters : Prop :=
  ∀ (x : Reg) (s : State), s.mem.wf = true → s.dataAddr + x.val + 1 ≤ 4096 →
    ∃ t, exec (.ldMemVx x) s = .next t ∧
      ∀ u : State, u.mem = t.mem → u.i = s.i →
        ∃ w, exec (.ldVxMem x) u = .next w ∧ w.i = t.i ∧ ∀ k : Reg, k ≤ x → w.reg k = s.reg k

/-! ## Display -/

/-- R195: every cell becomes 0 and nothing else changes, VF among it. -/
def Obligations.ClearScreen : Prop :=
  encode .cls = 0x00E0 ∧
  ∀ s : State, ∃ t, exec .cls s = .next t ∧ t = { s with disp := t.disp } ∧ ∀ (x : Col) (y : Row), t.disp[x][y] = false

/-- R193 and R194: every cell takes its bit of the N-row sprite at I by XOR, wrapping at both edges, and VF becomes 1 exactly
when some set bit lands on a set cell. A draw whose rows leave memory draws the rows before, leaves VF alone and reports the
first address past memory. -/
def Obligations.DrawSpriteXorsCells : Prop :=
  ∀ (x y : Reg) (n : Nibble) (s : State),
    (encode (.drw x y n)).toNat = 0xD000 + x.val * 256 + y.val * 16 + n.toNat ∧
    (n = 0 ∨ s.dataAddr + n.toNat ≤ 4096 →
      ∃ t, exec (.drw x y n) s = .next t ∧ t = { s with v := t.v, disp := t.disp } ∧
        (∀ (cx : Col) (cy : Row), t.disp[cx][cy] = (s.disp[cx][cy] ^^ s.spriteBit (s.reg x) (s.reg y) n.toNat cx cy)) ∧
        (∀ r, r ≠ VF → t.reg r = s.reg r) ∧ (t.reg VF = 0 ∨ t.reg VF = 1) ∧
        (t.reg VF = 1 ↔ ∃ (cx : Col) (cy : Row),
          s.disp[cx][cy] = true ∧ s.spriteBit (s.reg x) (s.reg y) n.toNat cx cy = true)) ∧
    (n ≠ 0 → 4096 < s.dataAddr + n.toNat →
      ∃ t, exec (.drw x y n) s = .next t ∧
        t = { s with disp := t.disp, fault := some (.memoryOutOfBounds (max s.dataAddr 4096) .read (some (s.pc - 2))) } ∧
        ∀ (cx : Col) (cy : Row), t.disp[cx][cy] = (s.disp[cx][cy] ^^ s.spriteBit (s.reg x) (s.reg y) (4096 - s.dataAddr) cx cy))

/-- Drawing the same sprite at the same place twice restores every cell (R197, an inference of the spec). The second draw sets
VF to 1 exactly when some set bit of the sprite lands on a cell that was clear at the start: R197's own sentence names the set
bit alone, which R191 and R194 do not bear out where every set bit lands on a set cell (log 26). VF is no coordinate, since the
first draw writes it. -/
def Obligations.DrawTwiceRestoresDisplay : Prop :=
  ∀ (x y : Reg) (n : Nibble) (s : State), x ≠ VF → y ≠ VF → (n = 0 ∨ s.dataAddr + n.toNat ≤ 4096) →
    ∃ t u, exec (.drw x y n) s = .next t ∧ exec (.drw x y n) t = .next u ∧ u.disp = s.disp ∧
      (u.reg VF = 1 ↔ ∃ (cx : Col) (cy : Row),
        s.disp[cx][cy] = false ∧ s.spriteBit (s.reg x) (s.reg y) n.toNat cx cy = true)

/-! ## Keyboard and timers -/

/-- R214 and R215: SKP and SKNP add 2 to pc on the state of key V[X], which is not consumed, and raise KeyOutOfRange for
V[X] of 16 and more. -/
def Obligations.SkipsOnKey : Prop :=
  ∀ (x : Reg) (s : State),
    (encode (.skp x)).toNat = 0xE09E + x.val * 256 ∧ (encode (.sknp x)).toNat = 0xE0A1 + x.val * 256 ∧
    (∀ k : Key, (s.reg x).toNat = k.val →
      exec (.skp x) s = .next (if s.key[k] = true then { s with pc := s.pc + 2 } else s) ∧
      exec (.sknp x) s = .next (if s.key[k] = true then s else { s with pc := s.pc + 2 })) ∧
    (16 ≤ (s.reg x).toNat →
      exec (.skp x) s = .next { s with fault := some (.keyOutOfRange (s.reg x) (s.pc - 2)) } ∧
      exec (.sknp x) s = .next { s with fault := some (.keyOutOfRange (s.reg x) (s.pc - 2)) })

/-- R216 and R213: FX0A with no key pressed sets `halted` and changes nothing else; with a key pressed it takes the lowest
into V[X], releases it and leaves `halted` false. -/
def Obligations.WaitForKeyTakesLowest : Prop :=
  ∀ (x : Reg) (s : State), (encode (.ldVxK x)).toNat = 0xF00A + x.val * 256 ∧
    ((∀ k : Key, s.key[k] = false) →
      exec (.ldVxK x) s = .next { s with halted := true } ∧ takeAnyPressed s = (none, s)) ∧
    ∀ k : Key, s.key[k] = true → (∀ j : Key, j < k → s.key[j] = false) →
      (∃ t, exec (.ldVxK x) s = .next t ∧ t = { s with v := t.v, key := t.key, halted := false } ∧
        t.reg x = BitVec.ofNat 8 k.val ∧ (∀ r, r ≠ x → t.reg r = s.reg r) ∧
        t.key[k] = false ∧ ∀ j : Key, j ≠ k → t.key[j] = s.key[j]) ∧
      takeAnyPressed s = (some k, { s with key := s.key.set k false })

/-- R230, R231, R232: FX07 reads DT into V[X]; FX15 and FX18 write V[X] to DT and ST; no other instruction
than FX15 changes DT. -/
def Obligations.TimerInstructions : Prop :=
  ∀ (x : Reg) (s : State),
    (encode (.ldVxDT x)).toNat = 0xF007 + x.val * 256 ∧ (encode (.ldDTVx x)).toNat = 0xF015 + x.val * 256 ∧
    (encode (.ldSTVx x)).toNat = 0xF018 + x.val * 256 ∧
    (∃ t, exec (.ldVxDT x) s = .next t ∧ WritesReg x s.dt s t) ∧
    exec (.ldDTVx x) s = .next { s with dt := s.reg x } ∧
    exec (.ldSTVx x) s = .next { s with st := s.reg x } ∧
    ∀ i t, exec i s = .next t → (∀ z, i ≠ .ldDTVx z) → t.dt = s.dt

/-! ## Host operations and reset -/

/-- R252, with the frame of R256 (the spec's decisions D17 and D18, in the form of log 21): TICK decrements DT, clamped at zero,
and has no other effect on a core that is not faulted. A frame of any number of steps does it first, before its events and its
steps; after it, no key event changes DT, and no step changes DT unless the word it fetches decodes to FX15. -/
def Obligations.TickDecrementsDelayTimer : Prop :=
  (∀ s : State, s.fault = none →
    operate .tick s = ({ s with dt := BitVec.ofNat 8 (s.dt.toNat - 1) }, .ok) ∧
    ∀ steps events,
      frameWith steps events s = stepBatch steps (deliver events { s with dt := BitVec.ofNat 8 (s.dt.toNat - 1) })) ∧
  (∀ events s, (deliver events s).dt = s.dt) ∧
  ∀ s t : State, step s = .next t → t.dt ≠ s.dt → ∃ x, decodeWord (s.wordAt s.fetchAddr) = .ok (.ldDTVx x)

/-- R211, with the four-bit index of decision D12 (log 15): KEY_DOWN and KEY_UP set and clear one key of a core that is not
faulted, and nothing else. -/
def Obligations.KeyEventsSetAndClear : Prop :=
  ∀ (k : Key) (s : State), s.fault = none →
    (∃ t, operate (.keyDown k) s = (t, .ok) ∧ t = { s with key := t.key } ∧ t.key[k] = true ∧
      ∀ j : Key, j ≠ k → t.key[j] = s.key[j]) ∧
    ∃ t, operate (.keyUp k) s = (t, .ok) ∧ t = { s with key := t.key } ∧ t.key[k] = false ∧
      ∀ j : Key, j ≠ k → t.key[j] = s.key[j]

/-- R48, for the empty program: pc and memory as the source states them; the values of V, I, the stack, DT, ST, `halted`, the
display and the keys are the spec's decision D4 (log 5), and the font bytes are the default of decision D5 (log 6). -/
def Obligations.ResetStateValues : Prop :=
  State.reset.pc = 0x200 ∧ (∀ r, State.reset.reg r = 0) ∧ State.reset.i = 0 ∧ State.reset.stack = [] ∧
  State.reset.dt = 0 ∧ State.reset.st = 0 ∧ State.reset.halted = false ∧ State.reset.faulted = false ∧
  State.reset.fault = none ∧ (∀ (x : Col) (y : Row), State.reset.disp[x][y] = false) ∧ (∀ k : Key, State.reset.key[k] = false) ∧
  (∀ (a : Nat) (h : a < Config.font.length), State.reset.mem.read a = Config.font[a]) ∧ Config.font.length = 0x50 ∧
  ∀ a, 0x50 ≤ a → State.reset.mem.read a = 0

/-- R74: RESET writes the program from 0x200, one byte per address; a program of more than 3584 bytes writes the first 3584,
raises MemoryOutOfBounds at 0x1000, and the core never steps. No operation of the host but RESET writes memory, save through the
instructions a STEP runs. -/
def Obligations.ProgramLoadWritesBytes : Prop :=
  ∀ (p : List Byte) (s : State), ∃ t, (operate (.reset p) s).1 = t ∧
    t = { State.reset with mem := t.mem, fault := t.fault, draws := t.draws } ∧
    (∀ (k : Nat) (h : k < p.length), 0x200 + k < 4096 → t.mem.read (0x200 + k) = p[k]) ∧
    (∀ a, (a < 0x200 ∨ 0x200 + p.length ≤ a ∨ 4096 ≤ a) → t.mem.read a = State.reset.mem.read a) ∧
    (p.length ≤ 3584 → t.fault = none ∧ (operate (.reset p) s).2 = .ok) ∧
    (3584 < p.length → t.fault = some (.memoryOutOfBounds 0x1000 .write none) ∧
      (operate (.reset p) s).2 = .fault (.memoryOutOfBounds 0x1000 .write none) ∧
      step t = .fault (.memoryOutOfBounds 0x1000 .write none)) ∧
    ∀ o, o ≠ .step → (∀ q, o ≠ .reset q) → (operate o s).1.mem = s.mem

/-- READ_PIXEL and READ_STATUS answer the current values and have no side effect (R251 by decision D1, R255). -/
def Obligations.ReadoutsAnswerAndChangeNothing : Prop :=
  ∀ s : State, (∀ x y, operate (.readPixel x y) s = (s, .pixel s.disp[x][y])) ∧
    operate .readStatus s = (s, .status s.fault.isSome s.fault s.halted) ∧ readout s = s.disp

/-- A frame of a core that awaits a key, with no key pressed and no event, is its TICK alone: every step of the batch polls
again (R217, R252, R256 by decisions D17 and D18, R263). -/
def Obligations.WaitingFrameOnlyTicks : Prop :=
  ∀ (s : State) (x : Reg), s.fault = none → s.halted = true → s.fx0aBefore x → (∀ k : Key, s.key[k] = false) →
    frame [] s = ({ s with dt := BitVec.ofNat 8 (s.dt.toNat - 1) }, .ok)

/-! ## Invariants and rules of the whole machine -/

/-- The invariant holds right after reset. -/
def Obligations.ResetSatisfiesInvariant : Prop := State.reset.Inv

/-- Every STEP keeps the invariant: memory is canonical, and while halted the word two below pc is an FX0A (R105). -/
def Obligations.StepKeepsInvariant : Prop :=
  ∀ s t : State, s.Inv → step s = .next t → t.Inv

/-- Every host operation keeps the invariant, and RESET establishes it whatever the state before (R105, R270). -/
def Obligations.HostOperationsKeepInvariant : Prop :=
  (∀ (o : HostOp) (s : State), s.Inv → (operate o s).1.Inv) ∧ ∀ (p : List Byte) (s : State), (operate (.reset p) s).1.Inv

/-- R32, an inference of the spec: an instruction changes no general register but those R31 and R32 list for it. -/
def Obligations.OnlyListedRegistersChange : Prop :=
  ∀ (i : Instr) (s t : State) (r : Reg), exec i s = .next t → t.reg r ≠ s.reg r → mayWriteReg i r

/-- The writers of R45's table, with those of the display, the keys and memory (R40, R41, R60), inferences of the spec: a piece
of state changes only under the instructions listed for it. `faulted` and the fault record are one field (log 25), which changes
only under an instruction that can raise; `draws` is the model's own (log 3). The general registers have a statement of their
own, OnlyListedRegistersChange. -/
def Obligations.StateChangesOnlyByItsWriters : Prop :=
  ∀ (i : Instr) (s t : State), exec i s = .next t →
    (t.i ≠ s.i → (∃ a, i = .ldI a) ∨ ∃ x, i = .addIVx x ∨ i = .ldFVx x ∨ i = .ldMemVx x ∨ i = .ldVxMem x) ∧
    (t.stack ≠ s.stack → i = .ret ∨ ∃ a, i = .call a) ∧
    (t.dt ≠ s.dt → ∃ x, i = .ldDTVx x) ∧
    (t.st ≠ s.st → ∃ x, i = .ldSTVx x) ∧
    (t.halted ≠ s.halted → ∃ x, i = .ldVxK x) ∧
    (t.key ≠ s.key → ∃ x, i = .ldVxK x) ∧
    (t.disp ≠ s.disp → i = .cls ∨ ∃ x y n, i = .drw x y n) ∧
    (t.mem ≠ s.mem → ∃ x, i = .ldBVx x ∨ i = .ldMemVx x) ∧
    (t.fault ≠ s.fault → i = .ret ∨ (∃ x y n, i = .drw x y n) ∨
      ∃ x, i = .skp x ∨ i = .sknp x ∨ i = .ldBVx x ∨ i = .ldMemVx x ∨ i = .ldVxMem x) ∧
    (t.draws ≠ s.draws → ∃ x nn, i = .rnd x nn) ∧
    (t.pc ≠ s.pc → i = .ret ∨ (∃ a, i = .jp a ∨ i = .call a ∨ i = .jpV0 a) ∨ (∃ x nn, i = .seImm x nn ∨ i = .sneImm x nn) ∨
      (∃ x y, i = .seReg x y ∨ i = .sneReg x y) ∨ ∃ x, i = .skp x ∨ i = .sknp x)

/-- No program can observe ST (R38, by decision D8; log 9): a core that differs only in ST takes the same step, and the states
after it differ at most in ST. -/
def Obligations.SoundTimerIsUnobservable : Prop :=
  ∀ (s : State) (b : Byte),
    (∀ t, step s = .next t → ∃ c, step { s with st := b } = .next { t with st := c }) ∧
    (∀ f, step s = .fault f → step { s with st := b } = .fault f)

/-- `JP a` at address a is a fixed point of STEP (R258, an inference of the spec from R121). -/
def Obligations.SelfJumpIsFixedPoint : Prop :=
  ∀ (s : State) (nnn : Addr12), s.fault = none → s.halted = false → s.pc.toNat = nnn.toNat → s.pc.toNat + 1 < 4096 →
    s.wordAt s.pc = encode (.jp nnn) → step s = .next s

/-- R61: MemRead and MemWrite raise MemoryOutOfBounds at 4096 and above, with no effect on memory, and otherwise answer and
store the byte. -/
def Obligations.MemoryAccessBoundsCheck : Prop :=
  ∀ (ia : Option Word) (a : Nat) (b : Byte) (s : State),
    (4096 ≤ a →
      memRead ia a s = .raised { s with fault := some (.memoryOutOfBounds a .read ia) } ∧
      memWrite ia a b s = .raised { s with fault := some (.memoryOutOfBounds a .write ia) }) ∧
    (a < 4096 →
      memRead ia a s = .ok (s.mem.read a) s ∧
      ∃ t, memWrite ia a b s = .ok () t ∧ t = { s with mem := t.mem } ∧ (s.mem.wf = true → t.mem.read a = b) ∧
        ∀ c, c ≠ a → t.mem.read c = s.mem.read c)

/-- R70 and R72 (the latter an inference of the spec): after a store, a read of any address inside memory, the fetch's among
them, gives the byte stored there last, and memory stays canonical. -/
def Obligations.ReadsReturnTheLastWrite : Prop :=
  ∀ (ia ja : Option Word) (a c : Nat) (b : Byte) (s t : State), s.mem.wf = true → c < 4096 → memWrite ia a b s = .ok () t →
    t.mem.wf = true ∧ memRead ja c t = .ok (if c = a then b else s.mem.read c) t ∧
    (a = t.pc.toNat → a + 1 < 4096 → ∃ w u, fetch t = .ok w u ∧ w.extractLsb' 8 8 = b)
end

