-- ==== Sys2Proof/Laws/Memory.lean ====
section
/-! SUPPORT. The laws of memory: a read after a write, and every operation keeps the canonical form. -/

namespace Sys2Proof.Machine

/-- Canonical memory has no cell below its start. -/
theorem Memory.lookup_none_of_wfFrom : ∀ {m : Memory} {lo a : Nat}, Memory.wfFrom lo m = true → a < lo → Memory.lookup m a = none
  | [], _, _, _, _ => rfl
  | c :: m, lo, a, h, ha => by
    simp only [Memory.wfFrom, Bool.and_eq_true, decide_eq_true_eq] at h
    have hc : c.1 ≠ a := by omega
    simp only [Memory.lookup, hc, if_false]
    exact Memory.lookup_none_of_wfFrom h.2 (by omega)

/-- Canonical memory lists nothing at or above the size of the store. -/
theorem Memory.lookup_none_of_memSize : ∀ {m : Memory} {lo a : Nat}, Memory.wfFrom lo m = true → Config.memSize ≤ a → Memory.lookup m a = none
  | [], _, _, _, _ => rfl
  | c :: m, lo, a, h, ha => by
    simp only [Memory.wfFrom, Bool.and_eq_true, decide_eq_true_eq] at h
    have hc : c.1 ≠ a := by omega
    simp only [Memory.lookup, hc, if_false]
    exact Memory.lookup_none_of_memSize h.2 ha

theorem Memory.wfFrom_mono : ∀ {m : Memory} {lo lo' : Nat}, Memory.wfFrom lo m = true → lo' ≤ lo → Memory.wfFrom lo' m = true
  | [], _, _, _, _ => rfl
  | c :: m, lo, lo', h, hl => by
    simp only [Memory.wfFrom, Bool.and_eq_true, decide_eq_true_eq] at h ⊢
    exact ⟨⟨⟨by omega, h.1.1.2⟩, h.1.2⟩, h.2⟩

theorem Memory.lookup_insert : ∀ (m : Memory) (a x : Nat) (b : Byte),
    Memory.lookup (Memory.insert m a b) x = if x = a then some b else Memory.lookup m x
  | [], a, x, b => by simp only [Memory.insert, Memory.lookup, eq_comm]
  | c :: m, a, x, b => by
    have ih := Memory.lookup_insert m a x b
    simp only [Memory.insert]
    split
    · simp only [Memory.lookup, eq_comm]
    · split
      · next h => subst h; simp only [Memory.lookup, eq_comm]; split <;> rfl
      · next h1 h2 =>
        simp only [Memory.lookup, ih]
        by_cases hx : x = a
        · subst hx; simp [Ne.symm h2]
        · simp [hx]

theorem Memory.lookup_erase_ne : ∀ (m : Memory) {a x : Nat}, x ≠ a → Memory.lookup (Memory.erase m a) x = Memory.lookup m x
  | [], _, _, _ => rfl
  | c :: m, a, x, h => by
    simp only [Memory.erase]
    split
    · next hc => simp [Memory.lookup, hc, Ne.symm h]
    · simp [Memory.lookup, Memory.lookup_erase_ne m h]

theorem Memory.lookup_erase_self : ∀ {m : Memory} {lo : Nat} (a : Nat), Memory.wfFrom lo m = true → Memory.lookup (Memory.erase m a) a = none
  | [], _, _, _ => rfl
  | c :: m, lo, a, h => by
    simp only [Memory.wfFrom, Bool.and_eq_true, decide_eq_true_eq] at h
    simp only [Memory.erase]
    split
    · next hc => exact Memory.lookup_none_of_wfFrom h.2 (by omega)
    · next hc => simp [Memory.lookup, hc, Memory.lookup_erase_self a h.2]

/-- Reading elsewhere than a write gives what it gave before. -/
theorem Memory.read_write_ne (m : Memory) {a x : Nat} (b : Byte) (h : x ≠ a) :
    (m.write a b).read x = m.read x := by
  simp only [Memory.read, Memory.write]
  split
  · rw [Memory.lookup_erase_ne m h]
  · rw [Memory.lookup_insert]; simp [h]

/-- Reading where a canonical memory was written gives the byte written. -/
theorem Memory.read_write_self {m : Memory} (h : m.wf = true) (a : Nat) (b : Byte) :
    (m.write a b).read a = b := by
  simp only [Memory.read, Memory.write]
  split
  · next hb => rw [Memory.lookup_erase_self a h]; exact hb.symm
  · rw [Memory.lookup_insert]; simp

theorem Memory.read_write {m : Memory} (h : m.wf = true) (a x : Nat) (b : Byte) :
    (m.write a b).read x = if x = a then b else m.read x := by
  split
  · next hx => subst hx; exact Memory.read_write_self h x b
  · next hx => exact Memory.read_write_ne m b hx

theorem Memory.wfFrom_erase : ∀ {m : Memory} {lo : Nat} (a : Nat), Memory.wfFrom lo m = true → Memory.wfFrom lo (Memory.erase m a) = true
  | [], _, _, _ => rfl
  | c :: m, lo, a, h => by
    simp only [Memory.wfFrom, Bool.and_eq_true, decide_eq_true_eq] at h
    simp only [Memory.erase]
    split
    · exact Memory.wfFrom_mono h.2 (by omega)
    · simp only [Memory.wfFrom, Bool.and_eq_true, decide_eq_true_eq]
      exact ⟨h.1, Memory.wfFrom_erase a h.2⟩

theorem Memory.wfFrom_insert : ∀ {m : Memory} {lo a : Nat} {b : Byte}, Memory.wfFrom lo m = true → lo ≤ a →
    a < Config.memSize → b ≠ Memory.unlisted a → Memory.wfFrom lo (Memory.insert m a b) = true
  | [], _, _, _, _, hl, ha, hb => by
    simp only [Memory.insert, Memory.wfFrom, Bool.and_eq_true, decide_eq_true_eq]
    exact ⟨⟨⟨hl, ha⟩, hb⟩, trivial⟩
  | c :: m, lo, a, b, h, hl, ha, hb => by
    have h' := h
    simp only [Memory.wfFrom, Bool.and_eq_true, decide_eq_true_eq] at h'
    simp only [Memory.insert]
    split
    · simp only [Memory.wfFrom, Bool.and_eq_true, decide_eq_true_eq]
      exact ⟨⟨⟨hl, ha⟩, hb⟩, ⟨⟨by omega, h'.1.1.2⟩, h'.1.2⟩, h'.2⟩
    · split
      · next e =>
        simp only [Memory.wfFrom, Bool.and_eq_true, decide_eq_true_eq]
        exact ⟨⟨⟨hl, ha⟩, hb⟩, by rw [e]; exact h'.2⟩
      · simp only [Memory.wfFrom, Bool.and_eq_true, decide_eq_true_eq]
        exact ⟨h'.1, Memory.wfFrom_insert h'.2 (by omega) ha hb⟩

/-- A write inside the store keeps the canonical form. -/
theorem Memory.write_wf {m : Memory} {a : Nat} (b : Byte) (h : m.wf = true) (ha : a < Config.memSize) :
    (m.write a b).wf = true := by
  simp only [Memory.write, Memory.wf]
  split
  · exact Memory.wfFrom_erase a h
  · next hb => exact Memory.wfFrom_insert h (Nat.zero_le a) ha hb

/-- Placing an instruction from outside keeps the canonical form. -/
theorem Memory.place_wf {m : Memory} (a : Nat) (b : Byte) (h : m.wf = true) : (m.place a b).wf = true := by
  simp only [Memory.place]
  split
  · next ha => exact Memory.write_wf b h ha
  · exact h

/-- Beyond the store a canonical memory reads as zero. -/
theorem Memory.read_beyond {m : Memory} {a : Nat} (h : m.wf = true) (ha : Config.memSize ≤ a) : m.read a = 0 := by
  have hf : Config.font.length = 80 := rfl
  simp only [Memory.read, Memory.lookup_none_of_memSize h ha, Memory.unlisted, Config.fontBase, Nat.sub_zero, Nat.zero_le, if_true]
  have ha' : 4096 ≤ a := ha
  rw [List.getElem?_eq_none (by omega)]
  rfl

theorem reset_mem_wf : State.reset.mem.wf = true := rfl

end Sys2Proof.Machine
end

