-- ==== Sys2Proof/Laws/State.lean ====
section
/-! SUPPORT. One lemma per field per update of the state, true by rfl, and reading a register, a pixel or a key after a write. -/

namespace Sys2Proof.Machine

@[simp] theorem State.setReg_v (s : State) (r : Reg) (b : Byte) : (s.setReg r b).v = s.v.set r b := rfl
@[simp] theorem State.setReg_i (s : State) (r : Reg) (b : Byte) : (s.setReg r b).i = s.i := rfl
@[simp] theorem State.setReg_pc (s : State) (r : Reg) (b : Byte) : (s.setReg r b).pc = s.pc := rfl
@[simp] theorem State.setReg_stack (s : State) (r : Reg) (b : Byte) : (s.setReg r b).stack = s.stack := rfl
@[simp] theorem State.setReg_dt (s : State) (r : Reg) (b : Byte) : (s.setReg r b).dt = s.dt := rfl
@[simp] theorem State.setReg_st (s : State) (r : Reg) (b : Byte) : (s.setReg r b).st = s.st := rfl
@[simp] theorem State.setReg_halted (s : State) (r : Reg) (b : Byte) : (s.setReg r b).halted = s.halted := rfl
@[simp] theorem State.setReg_disp (s : State) (r : Reg) (b : Byte) : (s.setReg r b).disp = s.disp := rfl
@[simp] theorem State.setReg_key (s : State) (r : Reg) (b : Byte) : (s.setReg r b).key = s.key := rfl
@[simp] theorem State.setReg_mem (s : State) (r : Reg) (b : Byte) : (s.setReg r b).mem = s.mem := rfl
@[simp] theorem State.setReg_fault (s : State) (r : Reg) (b : Byte) : (s.setReg r b).fault = s.fault := rfl
@[simp] theorem State.setReg_draws (s : State) (r : Reg) (b : Byte) : (s.setReg r b).draws = s.draws := rfl

@[simp] theorem enterFault_v (f : Fault) (s : State) : (enterFault f s).v = s.v := rfl
@[simp] theorem enterFault_i (f : Fault) (s : State) : (enterFault f s).i = s.i := rfl
@[simp] theorem enterFault_pc (f : Fault) (s : State) : (enterFault f s).pc = s.pc := rfl
@[simp] theorem enterFault_stack (f : Fault) (s : State) : (enterFault f s).stack = s.stack := rfl
@[simp] theorem enterFault_dt (f : Fault) (s : State) : (enterFault f s).dt = s.dt := rfl
@[simp] theorem enterFault_st (f : Fault) (s : State) : (enterFault f s).st = s.st := rfl
@[simp] theorem enterFault_halted (f : Fault) (s : State) : (enterFault f s).halted = s.halted := rfl
@[simp] theorem enterFault_disp (f : Fault) (s : State) : (enterFault f s).disp = s.disp := rfl
@[simp] theorem enterFault_key (f : Fault) (s : State) : (enterFault f s).key = s.key := rfl
@[simp] theorem enterFault_mem (f : Fault) (s : State) : (enterFault f s).mem = s.mem := rfl
@[simp] theorem enterFault_fault (f : Fault) (s : State) : (enterFault f s).fault = some f := rfl
@[simp] theorem enterFault_draws (f : Fault) (s : State) : (enterFault f s).draws = s.draws := rfl

@[simp] theorem State.setKey_v (s : State) (k : Key) (d : Bool) : (s.setKey k d).v = s.v := rfl
@[simp] theorem State.setKey_i (s : State) (k : Key) (d : Bool) : (s.setKey k d).i = s.i := rfl
@[simp] theorem State.setKey_pc (s : State) (k : Key) (d : Bool) : (s.setKey k d).pc = s.pc := rfl
@[simp] theorem State.setKey_stack (s : State) (k : Key) (d : Bool) : (s.setKey k d).stack = s.stack := rfl
@[simp] theorem State.setKey_dt (s : State) (k : Key) (d : Bool) : (s.setKey k d).dt = s.dt := rfl
@[simp] theorem State.setKey_st (s : State) (k : Key) (d : Bool) : (s.setKey k d).st = s.st := rfl
@[simp] theorem State.setKey_halted (s : State) (k : Key) (d : Bool) : (s.setKey k d).halted = s.halted := rfl
@[simp] theorem State.setKey_disp (s : State) (k : Key) (d : Bool) : (s.setKey k d).disp = s.disp := rfl
@[simp] theorem State.setKey_key (s : State) (k : Key) (d : Bool) : (s.setKey k d).key = s.key.set k d := rfl
@[simp] theorem State.setKey_mem (s : State) (k : Key) (d : Bool) : (s.setKey k d).mem = s.mem := rfl
@[simp] theorem State.setKey_fault (s : State) (k : Key) (d : Bool) : (s.setKey k d).fault = s.fault := rfl
@[simp] theorem State.setKey_draws (s : State) (k : Key) (d : Bool) : (s.setKey k d).draws = s.draws := rfl

@[simp] theorem clearDisplay_v (s : State) : (clearDisplay s).v = s.v := rfl
@[simp] theorem clearDisplay_i (s : State) : (clearDisplay s).i = s.i := rfl
@[simp] theorem clearDisplay_pc (s : State) : (clearDisplay s).pc = s.pc := rfl
@[simp] theorem clearDisplay_stack (s : State) : (clearDisplay s).stack = s.stack := rfl
@[simp] theorem clearDisplay_dt (s : State) : (clearDisplay s).dt = s.dt := rfl
@[simp] theorem clearDisplay_st (s : State) : (clearDisplay s).st = s.st := rfl
@[simp] theorem clearDisplay_halted (s : State) : (clearDisplay s).halted = s.halted := rfl
@[simp] theorem clearDisplay_disp (s : State) : (clearDisplay s).disp = .replicate Config.displayW (.replicate Config.displayH false) := rfl
@[simp] theorem clearDisplay_key (s : State) : (clearDisplay s).key = s.key := rfl
@[simp] theorem clearDisplay_mem (s : State) : (clearDisplay s).mem = s.mem := rfl
@[simp] theorem clearDisplay_fault (s : State) : (clearDisplay s).fault = s.fault := rfl
@[simp] theorem clearDisplay_draws (s : State) : (clearDisplay s).draws = s.draws := rfl

@[simp] theorem State.advanceI_v (s : State) (x : Reg) : (s.advanceI x).v = s.v := rfl
@[simp] theorem State.advanceI_i (s : State) (x : Reg) : (s.advanceI x).i = s.i + BitVec.ofNat 16 (x.val + 1) := rfl
@[simp] theorem State.advanceI_pc (s : State) (x : Reg) : (s.advanceI x).pc = s.pc := rfl
@[simp] theorem State.advanceI_stack (s : State) (x : Reg) : (s.advanceI x).stack = s.stack := rfl
@[simp] theorem State.advanceI_dt (s : State) (x : Reg) : (s.advanceI x).dt = s.dt := rfl
@[simp] theorem State.advanceI_st (s : State) (x : Reg) : (s.advanceI x).st = s.st := rfl
@[simp] theorem State.advanceI_halted (s : State) (x : Reg) : (s.advanceI x).halted = s.halted := rfl
@[simp] theorem State.advanceI_disp (s : State) (x : Reg) : (s.advanceI x).disp = s.disp := rfl
@[simp] theorem State.advanceI_key (s : State) (x : Reg) : (s.advanceI x).key = s.key := rfl
@[simp] theorem State.advanceI_mem (s : State) (x : Reg) : (s.advanceI x).mem = s.mem := rfl
@[simp] theorem State.advanceI_fault (s : State) (x : Reg) : (s.advanceI x).fault = s.fault := rfl
@[simp] theorem State.advanceI_draws (s : State) (x : Reg) : (s.advanceI x).draws = s.draws := rfl

@[simp] theorem setPixel_v (x : Col) (y : Row) (b : Bool) (s : State) : (setPixel x y b s).1.v = s.v := rfl
@[simp] theorem setPixel_i (x : Col) (y : Row) (b : Bool) (s : State) : (setPixel x y b s).1.i = s.i := rfl
@[simp] theorem setPixel_pc (x : Col) (y : Row) (b : Bool) (s : State) : (setPixel x y b s).1.pc = s.pc := rfl
@[simp] theorem setPixel_stack (x : Col) (y : Row) (b : Bool) (s : State) : (setPixel x y b s).1.stack = s.stack := rfl
@[simp] theorem setPixel_dt (x : Col) (y : Row) (b : Bool) (s : State) : (setPixel x y b s).1.dt = s.dt := rfl
@[simp] theorem setPixel_st (x : Col) (y : Row) (b : Bool) (s : State) : (setPixel x y b s).1.st = s.st := rfl
@[simp] theorem setPixel_halted (x : Col) (y : Row) (b : Bool) (s : State) : (setPixel x y b s).1.halted = s.halted := rfl
@[simp] theorem setPixel_disp (x : Col) (y : Row) (b : Bool) (s : State) : (setPixel x y b s).1.disp = s.disp.set x (s.disp[x].set y (s.getPixel x y ^^ b)) := rfl
@[simp] theorem setPixel_key (x : Col) (y : Row) (b : Bool) (s : State) : (setPixel x y b s).1.key = s.key := rfl
@[simp] theorem setPixel_mem (x : Col) (y : Row) (b : Bool) (s : State) : (setPixel x y b s).1.mem = s.mem := rfl
@[simp] theorem setPixel_fault (x : Col) (y : Row) (b : Bool) (s : State) : (setPixel x y b s).1.fault = s.fault := rfl
@[simp] theorem setPixel_draws (x : Col) (y : Row) (b : Bool) (s : State) : (setPixel x y b s).1.draws = s.draws := rfl

@[simp] theorem rand8_v (s : State) : (rand8 s).2.v = s.v := rfl
@[simp] theorem rand8_i (s : State) : (rand8 s).2.i = s.i := rfl
@[simp] theorem rand8_pc (s : State) : (rand8 s).2.pc = s.pc := rfl
@[simp] theorem rand8_stack (s : State) : (rand8 s).2.stack = s.stack := rfl
@[simp] theorem rand8_dt (s : State) : (rand8 s).2.dt = s.dt := rfl
@[simp] theorem rand8_st (s : State) : (rand8 s).2.st = s.st := rfl
@[simp] theorem rand8_halted (s : State) : (rand8 s).2.halted = s.halted := rfl
@[simp] theorem rand8_disp (s : State) : (rand8 s).2.disp = s.disp := rfl
@[simp] theorem rand8_key (s : State) : (rand8 s).2.key = s.key := rfl
@[simp] theorem rand8_mem (s : State) : (rand8 s).2.mem = s.mem := rfl
@[simp] theorem rand8_fault (s : State) : (rand8 s).2.fault = s.fault := rfl
@[simp] theorem rand8_draws (s : State) : (rand8 s).2.draws = s.draws + 1 := rfl

@[simp] theorem reg_setReg_self (s : State) (r : Reg) (b : Byte) : (s.setReg r b).reg r = b := by
  simp [State.reg]

theorem reg_setReg_ne (s : State) {r q : Reg} (b : Byte) (h : q ≠ r) : (s.setReg r b).reg q = s.reg q := by
  have : r.val ≠ q.val := fun e => h (Fin.ext e.symm)
  simp [State.reg, Vector.getElem_set_ne, this]

theorem reg_setReg (s : State) (r q : Reg) (b : Byte) : (s.setReg r b).reg q = if q = r then b else s.reg q := by
  split
  · next h => simp [h]
  · next h => exact reg_setReg_ne s b h

@[simp] theorem isPressed_setKey_self (s : State) (k : Key) (d : Bool) : (s.setKey k d).isPressed k = d := by
  simp [State.isPressed]

theorem isPressed_setKey_ne (s : State) {k j : Key} (d : Bool) (h : j ≠ k) :
    (s.setKey k d).isPressed j = s.isPressed j := by
  have : k.val ≠ j.val := fun e => h (Fin.ext e.symm)
  simp [State.isPressed, Vector.getElem_set_ne, this]

@[simp] theorem getPixel_clearDisplay (s : State) (x : Col) (y : Row) : (clearDisplay s).getPixel x y = false := by
  simp [State.getPixel]

/-- Reading a cell of a grid after writing one. -/
theorem getElem_set2 {n m : Nat} (d : Vector (Vector Bool m) n) (x cx : Fin n) (y cy : Fin m) (b : Bool) :
    (d.set x (d[x].set y b))[cx][cy] = if cx = x ∧ cy = y then b else d[cx][cy] := by
  simp only [Fin.getElem_fin, Vector.getElem_set, Fin.ext_iff]
  by_cases hx : x.val = cx.val
  · simp only [hx, true_and, if_true]
    simp only [Vector.getElem_set, eq_comm]
  · simp [hx, Ne.symm hx, eq_comm]

theorem getPixel_setPixel (s : State) (x cx : Col) (y cy : Row) (b : Bool) :
    (setPixel x y b s).1.getPixel cx cy = if cx = x ∧ cy = y then s.getPixel x y ^^ b else s.getPixel cx cy :=
  getElem_set2 s.disp x cx y cy _

/-- Two displays with the same cells are the same display. -/
theorem disp_ext {s t : State} (h : ∀ x y, s.getPixel x y = t.getPixel x y) : s.disp = t.disp := by
  ext x hx y hy
  exact h ⟨x, hx⟩ ⟨y, hy⟩

/-- Two register files with the same registers are the same. -/
theorem v_ext {s t : State} (h : ∀ r, s.reg r = t.reg r) : s.v = t.v := by
  ext r hr : 1
  exact h ⟨r, hr⟩

end Sys2Proof.Machine
end

