-- ==== Sys2Proof/Laws/Ops.lean ====
section
/-! SUPPORT. For each shared operation, once, everything it can do. -/

namespace Sys2Proof.Machine

@[simp] theorem Res.bind_ok {α β : Type} (a : α) (s : State) (f : α → State → Res β) : (Res.ok a s).bind f = f a s := rfl

@[simp] theorem Res.bind_raised {α β : Type} (s : State) (f : α → State → Res β) : (Res.raised s).bind f = .raised s := rfl

@[simp] theorem Res.bind_raise {α β : Type} (e : Fault) (s : State) (f : α → State → Res β) :
    (raise e s).bind f = raise e s := rfl

@[simp] theorem Res.outcome_ok (s : State) : (Res.ok () s).outcome = .next s := rfl

@[simp] theorem Res.outcome_raised (s : State) : (Res.raised s).outcome = .next s := rfl

@[simp] theorem Res.outcome_raise (e : Fault) (s : State) : (raise e s).outcome = .next (enterFault e s) := rfl

/-- Whatever an instruction's operation does, its outcome is a next state. -/
theorem Res.outcome_next (r : Res Unit) : ∃ t, r.outcome = .next t := by
  cases r <;> exact ⟨_, rfl⟩

/-! ## One byte -/

theorem memRead_inside {ia : Option Word} {a : Nat} {s : State} (h : a < Config.memSize) :
    memRead ia a s = .ok (s.mem.read a) s := if_pos h

theorem memRead_outside {ia : Option Word} {a : Nat} {s : State} (h : Config.memSize ≤ a) :
    memRead ia a s = raise (.memoryOutOfBounds a .read ia) s := if_neg (Nat.not_lt.2 h)

theorem memWrite_inside {ia : Option Word} {a : Nat} {b : Byte} {s : State} (h : a < Config.memSize) :
    memWrite ia a b s = .ok () { s with mem := s.mem.write a b } := if_pos h

theorem memWrite_outside {ia : Option Word} {a : Nat} {b : Byte} {s : State} (h : Config.memSize ≤ a) :
    memWrite ia a b s = raise (.memoryOutOfBounds a .write ia) s := if_neg (Nat.not_lt.2 h)

/-! ## Storing a list of bytes -/

/-- The bytes of a list written one after the other, with no bound. -/
def Memory.writeList : Memory → Nat → List Byte → Memory
  | m, _, [] => m
  | m, a, b :: bs => Memory.writeList (m.write a b) (a + 1) bs

theorem storeBytes_inside {ia : Option Word} : ∀ {bs : List Byte} {a : Nat} {s : State}, a + bs.length ≤ Config.memSize →
    storeBytes ia a bs s = .ok () { s with mem := s.mem.writeList a bs }
  | [], _, _, _ => rfl
  | b :: bs, a, s, h => by
    have h' : a + bs.length + 1 ≤ Config.memSize := h
    rw [storeBytes, memWrite_inside (by omega), Res.bind_ok, storeBytes_inside (by omega)]
    rfl

theorem storeBytes_outside {ia : Option Word} : ∀ {bs : List Byte} {a : Nat} {s : State}, bs ≠ [] →
    Config.memSize < a + bs.length →
    storeBytes ia a bs s = raise (.memoryOutOfBounds (max a Config.memSize) .write ia)
      { s with mem := s.mem.writeList a (bs.take (Config.memSize - a)) }
  | [], _, _, hn, _ => absurd rfl hn
  | b :: bs, a, s, _, h => by
    have h' : Config.memSize < a + bs.length + 1 := h
    rw [storeBytes]
    by_cases ha : a < Config.memSize
    · rw [memWrite_inside ha, Res.bind_ok, storeBytes_outside (by rintro rfl; simp at h'; omega) (by omega)]
      obtain ⟨k, hk⟩ : ∃ k, Config.memSize - a = k + 1 := ⟨Config.memSize - a - 1, by omega⟩
      have hk' : Config.memSize - (a + 1) = k := by omega
      rw [hk, hk', Nat.max_eq_right (by omega), Nat.max_eq_right (by omega), List.take_succ_cons]
      rfl
    · rw [memWrite_outside (by omega), Nat.max_eq_left (by omega), Nat.sub_eq_zero_of_le (by omega)]
      rfl

theorem Memory.writeList_wf : ∀ {bs : List Byte} {m : Memory} {a : Nat}, m.wf = true → a + bs.length ≤ Config.memSize →
    (m.writeList a bs).wf = true
  | [], _, _, h, _ => h
  | b :: bs, m, a, h, hl => by
    have hl' : a + bs.length + 1 ≤ Config.memSize := hl
    rw [Memory.writeList]
    exact Memory.writeList_wf (Memory.write_wf b h (by omega)) (by omega)

/-- Reading outside the bytes of a stored list gives what it gave before. -/
theorem Memory.read_writeList_ne : ∀ {bs : List Byte} {m : Memory} {a x : Nat}, (x < a ∨ a + bs.length ≤ x) →
    (m.writeList a bs).read x = m.read x
  | [], _, _, _, _ => rfl
  | b :: bs, m, a, x, h => by
    have h' : x < a ∨ a + bs.length + 1 ≤ x := h
    rw [Memory.writeList, Memory.read_writeList_ne (by omega), Memory.read_write_ne _ _ (by omega)]

/-- Reading byte k of a stored list gives that byte. -/
theorem Memory.read_writeList : ∀ {bs : List Byte} {m : Memory} {a : Nat}, m.wf = true → a + bs.length ≤ Config.memSize →
    ∀ {k : Nat} (hk : k < bs.length), (m.writeList a bs).read (a + k) = bs[k]
  | [], _, _, _, _, _, hk => absurd hk (Nat.not_lt_zero _)
  | b :: bs, m, a, h, hl, 0, _ => by
    have hl' : a + bs.length + 1 ≤ Config.memSize := hl
    rw [Memory.writeList, Memory.read_writeList_ne (by omega), Nat.add_zero, Memory.read_write_self h]
    rfl
  | b :: bs, m, a, h, hl, k + 1, hk => by
    have hl' : a + bs.length + 1 ≤ Config.memSize := hl
    have hk' : k + 1 < bs.length + 1 := hk
    have := Memory.read_writeList (Memory.write_wf b h (by omega : a < Config.memSize)) (a := a + 1) (bs := bs) (by omega) (k := k) (by omega)
    rw [Memory.writeList, show a + (k + 1) = a + 1 + k by omega, this]
    rfl

/-- A list of byte writes changes memory, keeps its canonical form, and may record a fault; nothing else. -/
theorem storeBytes_frame {ia : Option Word} : ∀ {bs : List Byte} {a : Nat} {s : State}, s.mem.wf = true →
    ∃ m, m.wf = true ∧ ((storeBytes ia a bs s = .ok () { s with mem := m }) ∨
      ∃ e, storeBytes ia a bs s = .raised { s with mem := m, fault := some e })
  | [], _, s, h => ⟨s.mem, h, .inl rfl⟩
  | b :: bs, a, s, h => by
    rw [storeBytes]
    by_cases ha : a < Config.memSize
    · rw [memWrite_inside ha, Res.bind_ok]
      exact storeBytes_frame (bs := bs) (a := a + 1) (s := { s with mem := s.mem.write a b }) (Memory.write_wf b h ha)
    · rw [memWrite_outside (by omega)]
      exact ⟨s.mem, h, .inr ⟨_, rfl⟩⟩

/-! ## Loading a list of registers -/

/-- A load that stays inside memory writes exactly the registers of its list. -/
theorem loadRegs_inside {ia : Option Word} : ∀ {rs : List Reg} {a : Nat} {s : State}, rs.Nodup →
    a + rs.length ≤ Config.memSize →
    ∃ t, loadRegs ia a rs s = .ok () t ∧ t = { s with v := t.v } ∧
      (∀ k (hk : k < rs.length), t.reg rs[k] = s.mem.read (a + k)) ∧ ∀ r, r ∉ rs → t.reg r = s.reg r
  | [], a, s, _, _ => ⟨s, rfl, rfl, fun k hk => absurd hk (Nat.not_lt_zero _), fun _ _ => rfl⟩
  | q :: rs, a, s, hd, h => by
    have h' : a + rs.length + 1 ≤ Config.memSize := h
    have hq := (List.nodup_cons.1 hd).1
    obtain ⟨t, ht, hf, hin, hout⟩ := loadRegs_inside (ia := ia) (a := a + 1) (s := s.setReg q (s.mem.read a))
      (List.nodup_cons.1 hd).2 (by omega)
    refine ⟨t, by rw [loadRegs, memRead_inside (by omega), Res.bind_ok, ht], by rw [hf]; rfl, ?_, ?_⟩
    · rintro (_ | k) hk
      · simpa using hout q hq
      · have := hin k (by simpa using hk)
        simpa [show a + (k + 1) = a + 1 + k by omega] using this
    · intro r hr
      rw [hout r fun hm => hr (List.mem_cons_of_mem _ hm), reg_setReg_ne _ _ fun e => hr (by rw [e]; exact List.mem_cons_self)]

/-- A load that leaves memory writes the registers before the failing byte and faults there. -/
theorem loadRegs_outside {ia : Option Word} : ∀ {rs : List Reg} {a : Nat} {s : State}, rs.Nodup → rs ≠ [] →
    Config.memSize < a + rs.length →
    ∃ t, loadRegs ia a rs s = raise (.memoryOutOfBounds (max a Config.memSize) .read ia) t ∧ t = { s with v := t.v } ∧
      (∀ k (hk : k < rs.length), a + k < Config.memSize → t.reg rs[k] = s.mem.read (a + k)) ∧
      (∀ k (hk : k < rs.length), Config.memSize ≤ a + k → t.reg rs[k] = s.reg rs[k]) ∧
      ∀ r, r ∉ rs → t.reg r = s.reg r
  | [], _, _, _, hn, _ => absurd rfl hn
  | q :: rs, a, s, hd, _, h => by
    have h' : Config.memSize < a + rs.length + 1 := h
    have hq := (List.nodup_cons.1 hd).1
    by_cases ha : a < Config.memSize
    · obtain ⟨t, ht, hf, hin, hkeep, hout⟩ := loadRegs_outside (ia := ia) (a := a + 1) (s := s.setReg q (s.mem.read a))
        (List.nodup_cons.1 hd).2 (by rintro rfl; simp at h'; omega) (by omega)
      rw [Nat.max_eq_right (by omega)] at ht ⊢
      refine ⟨t, by rw [loadRegs, memRead_inside (by omega), Res.bind_ok, ht], by rw [hf]; rfl, ?_, ?_, ?_⟩
      · rintro (_ | k) hk hlt
        · simpa using hout q hq
        · have := hin k (by simpa using hk) (by omega)
          simpa [show a + (k + 1) = a + 1 + k by omega] using this
      · rintro (_ | k) hk hge
        · omega
        · have := hkeep k (by simpa using hk) (by omega)
          have hne : rs[k]'(by simpa using hk) ≠ q := fun e => hq (e ▸ List.getElem_mem _)
          simpa [reg_setReg_ne _ _ hne] using this
      · intro r hr
        rw [hout r fun hm => hr (List.mem_cons_of_mem _ hm), reg_setReg_ne _ _ fun e => hr (by rw [e]; exact List.mem_cons_self)]
    · refine ⟨s, by rw [loadRegs, memRead_outside (by omega), Nat.max_eq_left (by omega)]; rfl, rfl, fun k hk hlt => by omega,
        fun _ _ _ => rfl, fun _ _ => rfl⟩

/-- A load changes registers and may record a fault; nothing else. -/
theorem loadRegs_frame {ia : Option Word} : ∀ {rs : List Reg} {a : Nat} {s : State},
    ∃ v, ((loadRegs ia a rs s = .ok () { s with v := v }) ∨ ∃ e, loadRegs ia a rs s = .raised { s with v := v, fault := some e })
  | [], _, s => ⟨s.v, .inl rfl⟩
  | q :: rs, a, s => by
    rw [loadRegs]
    by_cases ha : a < Config.memSize
    · rw [memRead_inside ha, Res.bind_ok]
      exact loadRegs_frame (rs := rs) (a := a + 1) (s := s.setReg q (s.mem.read a))
    · rw [memRead_outside (by omega)]
      exact ⟨s.v, .inr ⟨_, rfl⟩⟩

@[simp] theorem length_regsUpTo (x : Reg) : (regsUpTo x).length = x.val + 1 := by
  simp [regsUpTo]

theorem nodup_regsUpTo (x : Reg) : (regsUpTo x).Nodup := (List.nodup_finRange 16).take

theorem getElem_regsUpTo (x : Reg) (k : Nat) (h : k < (regsUpTo x).length) :
    (regsUpTo x)[k] = ⟨k, by have := length_regsUpTo x; have := x.isLt; omega⟩ := by
  simp [regsUpTo]

theorem mem_regsUpTo {x r : Reg} : r ∈ regsUpTo x ↔ r ≤ x := by
  rw [List.mem_iff_getElem]
  constructor
  · rintro ⟨k, hk, rfl⟩
    have := length_regsUpTo x
    rw [getElem_regsUpTo, Fin.le_def]
    show k ≤ x.val
    omega
  · intro h
    rw [Fin.le_def] at h
    exact ⟨r.val, by rw [length_regsUpTo]; omega, getElem_regsUpTo ..⟩

/-! ## Fetch -/

theorem fetch_inside {s : State} (h : s.pc.toNat + 1 < Config.memSize) :
    fetch s = .ok (wordOfBytes (s.mem.read s.pc.toNat) (s.mem.read (s.pc.toNat + 1))) { s with pc := s.pc + 2 } := by
  rw [fetch, memRead_inside (by omega), Res.bind_ok, memRead_inside h, Res.bind_ok]

theorem fetch_outside {s : State} (h : Config.memSize ≤ s.pc.toNat) :
    fetch s = raise (.memoryOutOfBounds s.pc.toNat .read (some s.pc)) s := by
  rw [fetch, memRead_outside h, Res.bind_raise]

theorem fetch_edge {s : State} (h : s.pc.toNat + 1 = Config.memSize) :
    fetch s = raise (.memoryOutOfBounds Config.memSize .read (some s.pc)) s := by
  rw [fetch, memRead_inside (by omega), Res.bind_ok, memRead_outside (by omega), Res.bind_raise, h]

/-- Everything a fetch can do. -/
theorem fetch_cases (s : State) :
    (s.pc.toNat + 1 < Config.memSize ∧
      fetch s = .ok (wordOfBytes (s.mem.read s.pc.toNat) (s.mem.read (s.pc.toNat + 1))) { s with pc := s.pc + 2 }) ∨
    (Config.memSize ≤ s.pc.toNat + 1 ∧ ∃ e, fetch s = .raised { s with fault := some e }) := by
  rcases Nat.lt_trichotomy (s.pc.toNat + 1) Config.memSize with h | h | h
  · exact .inl ⟨h, fetch_inside h⟩
  · exact .inr ⟨by omega, _, fetch_edge h⟩
  · exact .inr ⟨by omega, _, fetch_outside (by omega)⟩

@[simp] theorem rewind_of_running {s : State} (h : s.halted = false) : rewind s = s := by simp [rewind, h]

theorem rewind_of_halted {s : State} (h : s.halted = true) : rewind s = { s with pc := s.pc - 2 } := by simp [rewind, h]

/-- Everything a STEP of a core that is not faulted can do. -/
theorem step_cases {s : State} {o : Host.Outcome State Fault Refusal} (hf : s.fault = none) (h : step s = o) :
    (∃ e, o = .next { rewind s with fault := some e }) ∨
    ((rewind s).pc.toNat + 1 < Config.memSize ∧
      ∃ w, w = wordOfBytes ((rewind s).mem.read (rewind s).pc.toNat) ((rewind s).mem.read ((rewind s).pc.toNat + 1)) ∧
        ((∃ r, decodeWord w = .error r ∧ o = .next (raiseDecodeError w { rewind s with pc := (rewind s).pc + 2 })) ∨
         ∃ i, decodeWord w = .ok i ∧ o = exec i { rewind s with pc := (rewind s).pc + 2 })) := by
  subst h
  rw [step, hf]
  rcases fetch_cases (rewind s) with ⟨ha, he⟩ | ⟨_, e, he⟩
  · refine .inr ⟨ha, _, rfl, ?_⟩
    simp only [he]
    split
    · next r hr => exact .inl ⟨r, hr, rfl⟩
    · next i hi => exact .inr ⟨i, hi, rfl⟩
  · exact .inl ⟨e, by simp only [he]⟩

/-! ## Call stack and keys -/

theorem push_unbounded (w : Word) (s : State) : push w s = .ok () { s with stack := s.stack ++ [w] } := by
  simp [push, pushWith, Config.stackDepth]

theorem pop_of_append {s : State} {st : List Word} {w : Word} (h : s.stack = st ++ [w]) :
    pop s = .ok w { s with stack := st } := by
  simp [pop, h]

theorem pop_of_empty {s : State} (h : s.stack = []) : pop s = raise (.stackUnderflow s.instrAddr) s := by
  simp [pop, h]

theorem keyOf_of_lt {b : Byte} (h : b.toNat < 16) : keyOf b = some ⟨b.toNat, h⟩ := dif_pos h

theorem keyOf_of_ge {b : Byte} (h : 16 ≤ b.toNat) : keyOf b = none := dif_neg (Nat.not_lt.2 h)

theorem lowestPressed_eq_none {s : State} : s.lowestPressed = none ↔ ∀ k, s.isPressed k = false := by
  simp [State.lowestPressed, List.find?_eq_none]

/-- The query finds the pressed key below which none is pressed. -/
theorem lowestPressed_eq_some {s : State} {k : Key} :
    s.lowestPressed = some k ↔ s.isPressed k = true ∧ ∀ j, j < k → s.isPressed j = false := by
  rw [State.lowestPressed, List.find?_eq_some_iff_getElem]
  constructor
  · rintro ⟨hp, i, hi, he, hj⟩
    refine ⟨hp, fun j hlt => ?_⟩
    have hik : i = k.val := by simpa using congrArg Fin.val he
    have := hj j.val (by rw [hik]; exact hlt)
    simpa using this
  · rintro ⟨hp, hl⟩
    refine ⟨hp, k.val, by simp, by simp, fun j hlt => ?_⟩
    have := hl ⟨j, by have := k.isLt; omega⟩ hlt
    simpa using this

theorem takeAnyPressed_none {s : State} (h : ∀ k, s.isPressed k = false) : takeAnyPressed s = (none, s) := by
  rw [takeAnyPressed, lowestPressed_eq_none.2 h]

theorem takeAnyPressed_some {s : State} {k : Key} (hk : s.isPressed k = true) (hl : ∀ j, j < k → s.isPressed j = false) :
    takeAnyPressed s = (some k, s.setKey k false) := by
  rw [takeAnyPressed, lowestPressed_eq_some.2 ⟨hk, hl⟩]

end Sys2Proof.Machine
end

