-- ==== Sys2Proof/Laws/Draw.lean ====
section
/-! SUPPORT. What drawing does in closed form: the loops of DXYN XOR one bit of the sprite into each cell. -/

namespace Sys2Proof.Machine

/-- The bit that the lowest n bits of a sprite byte at column V[X] put into column cx. -/
def rowBit (vx byte : Byte) (n : Nat) (cx : Col) : Bool :=
  decide ((cx.val + 64 - vx.toNat % 64) % 64 < 8) && decide (7 - (cx.val + 64 - vx.toNat % 64) % 64 < n) &&
    byte.getLsbD (7 - (cx.val + 64 - vx.toNat % 64) % 64)

/-- The bit that n rows read from an address put into a cell; `State.spriteBit` for any address and row counter. -/
def rowsBit (m : Memory) (vx y : Byte) (addr n : Nat) (cx : Col) (cy : Row) : Bool :=
  decide ((cx.val + 64 - vx.toNat % 64) % 64 < 8) && decide ((cy.val + 32 - y.toNat % 32) % 32 < n) &&
    (m.read (addr + (cy.val + 32 - y.toNat % 32) % 32)).getLsbD (7 - (cx.val + 64 - vx.toNat % 64) % 64)

theorem spriteBit_eq (s : State) (vx vy : Byte) (n : Nat) (cx : Col) (cy : Row) :
    s.spriteBit vx vy n cx cy = rowsBit s.mem vx vy s.i.toNat n cx cy := rfl

theorem pixelCol_eq_iff {vx : Byte} {b : Nat} {cx : Col} (h : b < 8) :
    cx = pixelCol vx b ↔ (cx.val + 64 - vx.toNat % 64) % 64 = 7 - b := by
  have hc : cx.val < 64 := cx.isLt
  have hv : (pixelCol vx b).val = (vx.toNat + 7 - b) % 64 := rfl
  rw [Fin.ext_iff, hv]
  omega

theorem pixelRow_eq_iff {y : Byte} {cy : Row} : cy = pixelRow y ↔ (cy.val + 32 - y.toNat % 32) % 32 = 0 := by
  have hc : cy.val < 32 := cy.isLt
  have hv : (pixelRow y).val = y.toNat % 32 := rfl
  rw [Fin.ext_iff, hv]
  omega

/-- One more bit of the byte is one more column. -/
theorem rowBit_succ {vx byte : Byte} {n : Nat} (h : n < 8) (cx : Col) :
    rowBit vx byte (n + 1) cx = if cx = pixelCol vx n then byte.getLsbD n else rowBit vx byte n cx := by
  split
  · next e =>
    rw [pixelCol_eq_iff h] at e
    simp only [rowBit, e, show 7 - (7 - n) = n by omega]
    simp; omega
  · next e =>
    rw [pixelCol_eq_iff h] at e
    simp only [rowBit]
    congr 1
    rw [Bool.eq_iff_iff]
    simp only [Bool.and_eq_true, decide_eq_true_eq]
    omega

theorem rowBit_zero_of_ge {vx byte : Byte} {n : Nat} (h : n < 8) : rowBit vx byte n (pixelCol vx n) = false := by
  have e := (pixelCol_eq_iff (cx := pixelCol vx n) h).1 rfl
  simp only [rowBit, e, show 7 - (7 - n) = n by omega]
  simp

/-- Drawing the lowest n bits of a row XORs them into the row's cells, and collides where both were set. -/
theorem drawBits_spec {vx : Byte} {row : Row} {byte : Byte} : ∀ {n : Nat} {s : State} {c : Bool}, n ≤ 8 →
    (drawBits vx row byte n s c).1 = { s with disp := (drawBits vx row byte n s c).1.disp } ∧
    (∀ cx cy, (drawBits vx row byte n s c).1.getPixel cx cy = (s.getPixel cx cy ^^ (decide (cy = row) && rowBit vx byte n cx))) ∧
    ((drawBits vx row byte n s c).2 = true ↔ c = true ∨ ∃ cx, s.getPixel cx row = true ∧ rowBit vx byte n cx = true)
  | 0, s, c, _ => by simp [drawBits, rowBit]
  | n + 1, s, c, h => by
    obtain ⟨h1, h2, h3⟩ := drawBits_spec (vx := vx) (row := row) (byte := byte) (n := n)
      (s := (setPixel (pixelCol vx n) row (byte.getLsbD n) s).1)
      (c := c || (setPixel (pixelCol vx n) row (byte.getLsbD n) s).2) (by omega)
    have hn : n < 8 := by omega
    have hz := rowBit_zero_of_ge (vx := vx) (byte := byte) hn
    refine ⟨?_, ?_, ?_⟩
    · exact h1
    · intro cx cy
      have := h2 cx cy
      rw [getPixel_setPixel] at this
      rw [rowBit_succ hn]
      refine this.trans ?_
      by_cases hx : cx = pixelCol vx n
      · subst hx; by_cases hy : cy = row
        · subst hy; simp [hz]
        · simp [hy]
      · simp [hx]
    · refine h3.trans ?_
      have hit : (setPixel (pixelCol vx n) row (byte.getLsbD n) s).2 = (s.getPixel (pixelCol vx n) row && byte.getLsbD n) := rfl
      rw [hit, Bool.or_eq_true, or_assoc]
      refine or_congr_right ⟨?_, ?_⟩
      · rintro (hh | ⟨cx, hp, hb⟩)
        · exact ⟨pixelCol vx n, by simpa [rowBit_succ hn] using hh⟩
        · have hx : cx ≠ pixelCol vx n := by rintro rfl; rw [hz] at hb; cases hb
          rw [getPixel_setPixel] at hp
          exact ⟨cx, by simpa [hx] using hp, by simpa [rowBit_succ hn, hx] using hb⟩
      · rintro ⟨cx, hp, hb⟩
        rw [rowBit_succ hn] at hb
        by_cases hx : cx = pixelCol vx n
        · subst hx; exact .inl (by simpa [hp] using hb)
        · exact .inr ⟨cx, by rw [getPixel_setPixel]; simpa [hx] using hp, by simpa [hx] using hb⟩

/-- A sprite of n + 1 rows is its first row and a sprite of n rows one address and one row further. -/
theorem rowsBit_succ {m : Memory} {vx y : Byte} {addr n : Nat} (cx : Col) (cy : Row) :
    rowsBit m vx y addr (n + 1) cx cy =
      if cy = pixelRow y then rowBit vx (m.read addr) 8 cx else rowsBit m vx (y + 1) (addr + 1) n cx cy := by
  have hc : cy.val < 32 := cy.isLt
  split
  · next e =>
    rw [pixelRow_eq_iff] at e
    simp only [rowsBit, rowBit, e]
    have : 7 - (cx.val + 64 - vx.toNat % 64) % 64 < 8 := by omega
    simp [this]
  · next e =>
    rw [pixelRow_eq_iff] at e
    have hy : (y + 1).toNat % 32 = (y.toNat + 1) % 32 := by
      rw [BitVec.toNat_add]; show (y.toNat + 1) % 256 % 32 = _; omega
    have hd : (cy.val + 32 - (y + 1).toNat % 32) % 32 + 1 = (cy.val + 32 - y.toNat % 32) % 32 := by rw [hy]; omega
    simp only [rowsBit, ← hd, Nat.add_lt_add_iff_right, show ∀ k, addr + 1 + k = addr + (k + 1) by omega]

theorem rowsBit_first_row {m : Memory} {vx y : Byte} {addr n : Nat} (h : n < 32) (cx : Col) (cy : Row) (e : cy = pixelRow y) :
    rowsBit m vx (y + 1) (addr + 1) n cx cy = false := by
  have hc : cy.val < 32 := cy.isLt
  rw [pixelRow_eq_iff] at e
  have hy : (y + 1).toNat % 32 = (y.toNat + 1) % 32 := by
    rw [BitVec.toNat_add]; show (y.toNat + 1) % 256 % 32 = _; omega
  have hd : ¬ (cy.val + 32 - (y + 1).toNat % 32) % 32 < n := by rw [hy]; omega
  simp only [rowsBit, decide_eq_false hd, Bool.and_false, Bool.false_and]

/-- Putting a first row and the rows below it together: the cells and the collision of n + 1 rows. -/
theorem draw_compose {s t u : State} {vx y : Byte} {addr n : Nat} {c c1 c2 : Bool} (hn : n < 32)
    (hm : t.mem = s.mem)
    (ht : ∀ cx cy, t.getPixel cx cy = (s.getPixel cx cy ^^ (decide (cy = pixelRow y) && rowBit vx (s.mem.read addr) 8 cx)))
    (hc1 : c1 = true ↔ c = true ∨ ∃ cx, s.getPixel cx (pixelRow y) = true ∧ rowBit vx (s.mem.read addr) 8 cx = true)
    (hu : ∀ cx cy, u.getPixel cx cy = (t.getPixel cx cy ^^ rowsBit t.mem vx (y + 1) (addr + 1) n cx cy))
    (hc2 : c2 = true ↔ c1 = true ∨ ∃ cx cy, t.getPixel cx cy = true ∧ rowsBit t.mem vx (y + 1) (addr + 1) n cx cy = true) :
    (∀ cx cy, u.getPixel cx cy = (s.getPixel cx cy ^^ rowsBit s.mem vx y addr (n + 1) cx cy)) ∧
    (c2 = true ↔ c = true ∨ ∃ cx cy, s.getPixel cx cy = true ∧ rowsBit s.mem vx y addr (n + 1) cx cy = true) := by
  rw [hm] at hc2
  simp only [hm] at hu
  constructor
  · intro cx cy
    rw [hu, ht, rowsBit_succ]
    by_cases e : cy = pixelRow y
    · rw [rowsBit_first_row hn cx cy e]; simp [e]
    · simp [e]
  · rw [hc2, hc1, or_assoc]
    refine or_congr_right ⟨?_, ?_⟩
    · rintro (⟨cx, hp, hb⟩ | ⟨cx, cy, hp, hb⟩)
      · exact ⟨cx, pixelRow y, hp, by rw [rowsBit_succ]; simpa using hb⟩
      · have e : cy ≠ pixelRow y := fun e => by rw [rowsBit_first_row hn cx cy e] at hb; cases hb
        exact ⟨cx, cy, by simpa [ht, e] using hp, by rw [rowsBit_succ]; simpa [e] using hb⟩
    · rintro ⟨cx, cy, hp, hb⟩
      rw [rowsBit_succ] at hb
      by_cases e : cy = pixelRow y
      · subst e; exact .inl ⟨cx, hp, by simpa using hb⟩
      · exact .inr ⟨cx, cy, by simpa [ht, e] using hp, by simpa [e] using hb⟩

/-- A draw whose rows lie inside memory: every cell takes its sprite bit by XOR, and the collision is the OR over cells. -/
theorem drawRows_inside {ia : Option Word} {vx : Byte} : ∀ {n addr : Nat} {y : Byte} {c : Bool} {s : State}, n ≤ 32 →
    (n = 0 ∨ addr + n ≤ Config.memSize) →
    ∃ t c', drawRows ia vx n addr y c s = .ok c' t ∧ t = { s with disp := t.disp } ∧
      (∀ cx cy, t.getPixel cx cy = (s.getPixel cx cy ^^ rowsBit s.mem vx y addr n cx cy)) ∧
      (c' = true ↔ c = true ∨ ∃ cx cy, s.getPixel cx cy = true ∧ rowsBit s.mem vx y addr n cx cy = true)
  | 0, addr, y, c, s, _, _ => ⟨s, c, rfl, rfl, by simp [rowsBit], by simp [rowsBit]⟩
  | n + 1, addr, y, c, s, h, hl => by
    obtain ⟨h1, h2, h3⟩ := drawBits_spec (vx := vx) (row := pixelRow y) (byte := s.mem.read addr) (n := 8) (s := s) (c := c)
      (Nat.le_refl 8)
    obtain ⟨u, c2, hu, hf, hp, hc⟩ := drawRows_inside (ia := ia) (vx := vx) (n := n) (addr := addr + 1) (y := y + 1)
      (c := (drawBits vx (pixelRow y) (s.mem.read addr) 8 s c).2) (s := (drawBits vx (pixelRow y) (s.mem.read addr) 8 s c).1)
      (by omega) (by omega)
    refine ⟨u, c2, ?_, by rw [hf, h1], ?_⟩
    · rw [drawRows, memRead_inside (by omega), Res.bind_ok]; exact hu
    · exact draw_compose (by omega) (by rw [h1]) h2 h3 hp hc

/-- A draw that leaves memory: the rows before the failing read are drawn, and it faults there. -/
theorem drawRows_outside {ia : Option Word} {vx : Byte} : ∀ {n addr : Nat} {y : Byte} {c : Bool} {s : State}, n ≤ 32 → n ≠ 0 →
    Config.memSize < addr + n →
    ∃ t, drawRows ia vx n addr y c s = raise (.memoryOutOfBounds (max addr Config.memSize) .read ia) t ∧
      t = { s with disp := t.disp } ∧
      ∀ cx cy, t.getPixel cx cy = (s.getPixel cx cy ^^ rowsBit s.mem vx y addr (Config.memSize - addr) cx cy)
  | 0, _, _, _, _, _, hn, _ => absurd rfl hn
  | n + 1, addr, y, c, s, h, _, hl => by
    by_cases ha : addr < Config.memSize
    · obtain ⟨h1, h2, h3⟩ := drawBits_spec (vx := vx) (row := pixelRow y) (byte := s.mem.read addr) (n := 8) (s := s) (c := c)
        (Nat.le_refl 8)
      obtain ⟨u, hu, hf, hp⟩ := drawRows_outside (ia := ia) (vx := vx) (n := n) (addr := addr + 1) (y := y + 1)
        (c := (drawBits vx (pixelRow y) (s.mem.read addr) 8 s c).2) (s := (drawBits vx (pixelRow y) (s.mem.read addr) 8 s c).1)
        (by omega) (by omega) (by omega)
      rw [Nat.max_eq_right (by omega)] at hu ⊢
      obtain ⟨k, hk⟩ : ∃ k, Config.memSize - addr = k + 1 := ⟨Config.memSize - addr - 1, by omega⟩
      rw [show Config.memSize - (addr + 1) = k by omega] at hp
      refine ⟨u, ?_, by rw [hf, h1], ?_⟩
      · rw [drawRows, memRead_inside ha, Res.bind_ok]; exact hu
      · rw [hk]
        exact (draw_compose (c2 := true) (c := true) (c1 := true) (by omega) (by rw [h1]) h2 (by simp) hp (by simp)).1
    · refine ⟨s, ?_, rfl, ?_⟩
      · rw [drawRows, memRead_outside (by omega), Nat.max_eq_left (by omega)]; rfl
      · simp [rowsBit, Nat.sub_eq_zero_of_le (Nat.le_of_not_lt ha)]

/-- A draw changes the display and may record a fault; nothing else. -/
theorem drawRows_frame {ia : Option Word} {vx : Byte} {n addr : Nat} {y : Byte} {c : Bool} {s : State} (h : n ≤ 32) :
    ∃ t, t = { s with disp := t.disp } ∧
      ((∃ c', drawRows ia vx n addr y c s = .ok c' t) ∨ ∃ e, drawRows ia vx n addr y c s = raise e t) := by
  by_cases hl : n = 0 ∨ addr + n ≤ Config.memSize
  · obtain ⟨t, c', ht, hf, _⟩ := drawRows_inside (ia := ia) (vx := vx) (y := y) (c := c) (s := s) h hl
    exact ⟨t, hf, .inl ⟨c', ht⟩⟩
  · obtain ⟨t, ht, hf, _⟩ := drawRows_outside (ia := ia) (vx := vx) (y := y) (c := c) (s := s) h (by omega) (by omega : Config.memSize < addr + n)
    exact ⟨t, hf, .inr ⟨_, ht⟩⟩

end Sys2Proof.Machine
end

