-- ==== Sys2Proof/Laws/Encoding.lean ====
section
/-! SUPPORT. The fields of a word and the formats of the encoder as numbers, and reading each field of each format back. -/

namespace Sys2Proof

theorem toNat_append_eq {n m : Nat} (a : BitVec n) (b : BitVec m) : (a ++ b).toNat = a.toNat * 2 ^ m + b.toNat := by
  rw [BitVec.toNat_append, ← Nat.shiftLeft_add_eq_or_of_lt b.isLt, Nat.shiftLeft_eq]

theorem toNat_extract_eq {n : Nat} (w : BitVec n) (lo len : Nat) : (w.extractLsb' lo len).toNat = w.toNat / 2 ^ lo % 2 ^ len := by
  rw [BitVec.extractLsb'_toNat, Nat.shiftRight_eq_div_pow]

theorem fieldF_toNat (w : Word) : (fieldF w).toNat = w.toNat / 4096 % 16 := toNat_extract_eq w 12 4

theorem fieldX_val (w : Word) : (fieldX w).val = w.toNat / 256 % 16 := toNat_extract_eq w 8 4

theorem fieldY_val (w : Word) : (fieldY w).val = w.toNat / 16 % 16 := toNat_extract_eq w 4 4

theorem fieldN_toNat (w : Word) : (fieldN w).toNat = w.toNat % 16 := by
  rw [fieldN, toNat_extract_eq]; omega

theorem fieldNN_toNat (w : Word) : (fieldNN w).toNat = w.toNat % 256 := by
  rw [fieldNN, toNat_extract_eq]; omega

theorem fieldNNN_toNat (w : Word) : (fieldNNN w).toNat = w.toNat % 4096 := by
  rw [fieldNNN, toNat_extract_eq]; omega

theorem wordOfBytes_toNat (hi lo : Byte) : (wordOfBytes hi lo).toNat = hi.toNat * 256 + lo.toNat := toNat_append_eq hi lo

/-- The two bytes of a word, put together again, are the word. -/
theorem wordOfBytes_bytes (w : Word) : wordOfBytes (highByte w) (lowByte w) = w := by
  apply BitVec.eq_of_toNat_eq
  have := w.isLt
  rw [wordOfBytes_toNat, highByte, lowByte, toNat_extract_eq, toNat_extract_eq]
  omega

theorem fmtA12_toNat (f : Nibble) (nnn : Addr12) : (fmtA12 f nnn).toNat = f.toNat * 4096 + nnn.toNat := toNat_append_eq f nnn

theorem fmtRI8_toNat (f : Nibble) (x : Reg) (nn : Byte) : (fmtRI8 f x nn).toNat = f.toNat * 4096 + x.val * 256 + nn.toNat := by
  have h1 := toNat_append_eq (f ++ (BitVec.ofFin x : Nibble)) nn
  have h2 := toNat_append_eq f (BitVec.ofFin x : Nibble)
  have h3 : (BitVec.ofFin x : Nibble).toNat = x.val := rfl
  rw [h2, h3] at h1
  rw [fmtRI8, h1]; omega

theorem fmtRRS_toNat (f : Nibble) (x y : Reg) (n : Nibble) :
    (fmtRRS f x y n).toNat = f.toNat * 4096 + x.val * 256 + y.val * 16 + n.toNat := by
  have h0 := toNat_append_eq (f ++ (BitVec.ofFin x : Nibble) ++ (BitVec.ofFin y : Nibble)) n
  have h1 := toNat_append_eq (f ++ (BitVec.ofFin x : Nibble)) (BitVec.ofFin y : Nibble)
  have h2 := toNat_append_eq f (BitVec.ofFin x : Nibble)
  have h3 : (BitVec.ofFin x : Nibble).toNat = x.val := rfl
  have h4 : (BitVec.ofFin y : Nibble).toNat = y.val := rfl
  rw [h1, h2, h3, h4] at h0
  rw [fmtRRS, h0]; omega

@[simp] theorem fieldF_fmtA12 (f : Nibble) (nnn : Addr12) : fieldF (fmtA12 f nnn) = f := by
  apply BitVec.eq_of_toNat_eq; rw [fieldF_toNat, fmtA12_toNat]; omega

@[simp] theorem fieldNNN_fmtA12 (f : Nibble) (nnn : Addr12) : fieldNNN (fmtA12 f nnn) = nnn := by
  apply BitVec.eq_of_toNat_eq; rw [fieldNNN_toNat, fmtA12_toNat]; omega

@[simp] theorem fieldF_fmtRI8 (f : Nibble) (x : Reg) (nn : Byte) : fieldF (fmtRI8 f x nn) = f := by
  apply BitVec.eq_of_toNat_eq; rw [fieldF_toNat, fmtRI8_toNat]; omega

@[simp] theorem fieldX_fmtRI8 (f : Nibble) (x : Reg) (nn : Byte) : fieldX (fmtRI8 f x nn) = x := by
  apply Fin.ext; rw [fieldX_val, fmtRI8_toNat]; omega

@[simp] theorem fieldNN_fmtRI8 (f : Nibble) (x : Reg) (nn : Byte) : fieldNN (fmtRI8 f x nn) = nn := by
  apply BitVec.eq_of_toNat_eq; rw [fieldNN_toNat, fmtRI8_toNat]; omega

@[simp] theorem fieldF_fmtRS8 (f : Nibble) (x : Reg) (ss : Byte) : fieldF (fmtRS8 f x ss) = f := fieldF_fmtRI8 f x ss

@[simp] theorem fieldX_fmtRS8 (f : Nibble) (x : Reg) (ss : Byte) : fieldX (fmtRS8 f x ss) = x := fieldX_fmtRI8 f x ss

@[simp] theorem fieldNN_fmtRS8 (f : Nibble) (x : Reg) (ss : Byte) : fieldNN (fmtRS8 f x ss) = ss := fieldNN_fmtRI8 f x ss

@[simp] theorem fieldF_fmtRRS (f : Nibble) (x y : Reg) (n : Nibble) : fieldF (fmtRRS f x y n) = f := by
  apply BitVec.eq_of_toNat_eq; rw [fieldF_toNat, fmtRRS_toNat]; omega

@[simp] theorem fieldX_fmtRRS (f : Nibble) (x y : Reg) (n : Nibble) : fieldX (fmtRRS f x y n) = x := by
  apply Fin.ext; rw [fieldX_val, fmtRRS_toNat]; omega

@[simp] theorem fieldY_fmtRRS (f : Nibble) (x y : Reg) (n : Nibble) : fieldY (fmtRRS f x y n) = y := by
  apply Fin.ext; rw [fieldY_val, fmtRRS_toNat]; omega

@[simp] theorem fieldN_fmtRRS (f : Nibble) (x y : Reg) (n : Nibble) : fieldN (fmtRRS f x y n) = n := by
  apply BitVec.eq_of_toNat_eq; rw [fieldN_toNat, fmtRRS_toNat]; omega

/-- A word is the A12 format of its fields. -/
theorem fmtA12_fields (w : Word) : fmtA12 (fieldF w) (fieldNNN w) = w := by
  apply BitVec.eq_of_toNat_eq
  have := w.isLt
  rw [fmtA12_toNat, fieldF_toNat, fieldNNN_toNat]; omega

/-- A word is the RI8 format of its fields. -/
theorem fmtRI8_fields (w : Word) : fmtRI8 (fieldF w) (fieldX w) (fieldNN w) = w := by
  apply BitVec.eq_of_toNat_eq
  have := w.isLt
  rw [fmtRI8_toNat, fieldF_toNat, fieldX_val, fieldNN_toNat]; omega

/-- A word is the RS8 format of its fields. -/
theorem fmtRS8_fields (w : Word) : fmtRS8 (fieldF w) (fieldX w) (fieldNN w) = w := fmtRI8_fields w

/-- A word is the RRS format of its fields. -/
theorem fmtRRS_fields (w : Word) : fmtRRS (fieldF w) (fieldX w) (fieldY w) (fieldN w) = w := by
  apply BitVec.eq_of_toNat_eq
  have := w.isLt
  rw [fmtRRS_toNat, fieldF_toNat, fieldX_val, fieldY_val, fieldN_toNat]; omega

theorem append_and_append {n m : Nat} (a c : BitVec n) (b d : BitVec m) : (a ++ b) &&& (c ++ d) = (a &&& c) ++ (b &&& d) :=
  BitVec.and_append

theorem nibble_and_ones (f : Nibble) : f &&& 0xF = f := BitVec.and_allOnes

theorem byte_and_ones (b : Byte) : b &&& 0xFF = b := BitVec.and_allOnes

theorem and_zero_eq {n : Nat} (a : BitVec n) : a &&& 0 = 0 := BitVec.and_zero

/-- A row of format A12 fits every word of its family. -/
theorem fits_fmtA12 (m : String) (f : Nibble) (nnn : Addr12) : (OpRow.mk m 0xF000 (fmtA12 f 0)).fits (fmtA12 f nnn) = true := by
  have : (0xF000 : Word) = (0xF : Nibble) ++ (0 : Addr12) := by decide
  simp only [OpRow.fits, beq_iff_eq, fmtA12]
  rw [this, append_and_append, nibble_and_ones, and_zero_eq]

/-- A row of format RI8 fits every word of its family. -/
theorem fits_fmtRI8 (m : String) (f : Nibble) (x : Reg) (nn : Byte) : (OpRow.mk m 0xF000 (fmtRI8 f 0 0)).fits (fmtRI8 f x nn) = true := by
  have : (0xF000 : Word) = (0xF : Nibble) ++ (0 : Nibble) ++ (0 : Byte) := by decide
  simp only [OpRow.fits, beq_iff_eq, fmtRI8]
  rw [this, append_and_append, append_and_append, nibble_and_ones, and_zero_eq, and_zero_eq]
  rfl

/-- A row of format RS8 fits every word of its family and sub-opcode. -/
theorem fits_fmtRS8 (m : String) (f : Nibble) (x : Reg) (ss : Byte) : (OpRow.mk m 0xF0FF (fmtRS8 f 0 ss)).fits (fmtRS8 f x ss) = true := by
  have : (0xF0FF : Word) = (0xF : Nibble) ++ (0 : Nibble) ++ (0xFF : Byte) := by decide
  simp only [OpRow.fits, beq_iff_eq, fmtRS8, fmtRI8]
  rw [this, append_and_append, append_and_append, nibble_and_ones, and_zero_eq, byte_and_ones]
  rfl

/-- A row of format RRS fits every word of its family and sub-opcode. -/
theorem fits_fmtRRS (m : String) (f : Nibble) (x y : Reg) (n : Nibble) :
    (OpRow.mk m 0xF00F (fmtRRS f 0 0 n)).fits (fmtRRS f x y n) = true := by
  have : (0xF00F : Word) = (0xF : Nibble) ++ (0 : Nibble) ++ (0 : Nibble) ++ (0xF : Nibble) := by decide
  simp only [OpRow.fits, beq_iff_eq, fmtRRS]
  rw [this, append_and_append, append_and_append, append_and_append, nibble_and_ones, nibble_and_ones, and_zero_eq, and_zero_eq]
  rfl

/-- A row of format RRN fits every word of its family. -/
theorem fits_fmtRRN (m : String) (f : Nibble) (x y : Reg) (n : Nibble) :
    (OpRow.mk m 0xF000 (fmtRRS f 0 0 0)).fits (fmtRRS f x y n) = true := by
  have : (0xF000 : Word) = (0xF : Nibble) ++ (0 : Nibble) ++ (0 : Nibble) ++ (0 : Nibble) := by decide
  simp only [OpRow.fits, beq_iff_eq, fmtRRS]
  rw [this, append_and_append, append_and_append, append_and_append, nibble_and_ones, and_zero_eq, and_zero_eq, and_zero_eq]
  rfl

end Sys2Proof
end

