-- ==== Sys2Proof/Laws/Exec.lean ====
section
/-! SUPPORT. What each instruction may change, said once: the inversion lemma that statements over all instructions go through. -/

namespace Sys2Proof.Machine

/-- The parts of the state an instruction may change, as a frame: everything else of `t` is that of `s`. -/
def Changes (i : Instr) (s t : State) : Prop :=
  match i with
  | .cls => t = { s with disp := t.disp }
  | .ret => t = { s with pc := t.pc, stack := t.stack, fault := t.fault }
  | .jp _ | .jpV0 _ | .seImm _ _ | .sneImm _ _ | .seReg _ _ | .sneReg _ _ => t = { s with pc := t.pc }
  | .call _ => t = { s with pc := t.pc, stack := t.stack }
  | .ldImm _ _ | .addImm _ _ | .ldReg _ _ | .orReg _ _ | .andReg _ _ | .xorReg _ _ | .addReg _ _ | .sub _ _ | .shr _ _ | .subn _ _
  | .shl _ _ | .ldVxDT _ => t = { s with v := t.v }
  | .rnd _ _ => t = { s with v := t.v, draws := t.draws }
  | .ldI _ | .addIVx _ | .ldFVx _ => t = { s with i := t.i }
  | .drw _ _ _ => t = { s with v := t.v, disp := t.disp, fault := t.fault }
  | .skp _ | .sknp _ => t = { s with pc := t.pc, fault := t.fault }
  | .ldVxK _ => t = { s with v := t.v, key := t.key, halted := t.halted }
  | .ldDTVx _ => t = { s with dt := t.dt }
  | .ldSTVx _ => t = { s with st := t.st }
  | .ldBVx _ => t = { s with mem := t.mem, fault := t.fault }
  | .ldMemVx _ => t = { s with mem := t.mem, i := t.i, fault := t.fault }
  | .ldVxMem _ => t = { s with v := t.v, i := t.i, fault := t.fault }

theorem next_injective {s t : State} (h : (Host.Outcome.next s : Host.Outcome State Fault Refusal) = .next t) : s = t := by
  cases h; rfl

theorem skipIf_frame (c : Bool) (s : State) : skipIf c s = { s with pc := (skipIf c s).pc } := by
  cases c <;> rfl

theorem writeResultAndFlag_frame (x : Reg) (r : Byte) (f : Bool) (s : State) :
    writeResultAndFlag x r f s = { s with v := (writeResultAndFlag x r f s).v } := by
  unfold writeResultAndFlag; cases Config.vfFlagLast <;> rfl

/-- A list of byte writes from any state changes memory and may record a fault. -/
theorem storeBytes_changes {ia : Option Word} : ∀ {bs : List Byte} {a : Nat} {s : State},
    ∃ m, (storeBytes ia a bs s = .ok () { s with mem := m }) ∨
      ∃ e, storeBytes ia a bs s = .raised { s with mem := m, fault := some e }
  | [], _, s => ⟨s.mem, .inl rfl⟩
  | b :: bs, a, s => by
    rw [storeBytes]
    by_cases ha : a < Config.memSize
    · rw [memWrite_inside ha, Res.bind_ok]
      exact storeBytes_changes (bs := bs) (a := a + 1) (s := { s with mem := s.mem.write a b })
    · rw [memWrite_outside (by omega)]
      exact ⟨s.mem, .inr ⟨_, rfl⟩⟩

theorem keyOperand_cases (x : Reg) (s : State) :
    (∃ k, keyOperand x s = .ok k s) ∨ ∃ e, keyOperand x s = raise e s := by
  unfold keyOperand; split
  · exact .inl ⟨_, rfl⟩
  · exact .inr ⟨_, rfl⟩

/-- Every instruction changes only the parts listed for it. -/
theorem exec_changes {i : Instr} {s t : State} (h : exec i s = .next t) : Changes i s t := by
  cases i
  case ret =>
    change execRet s = _ at h
    unfold execRet pop at h
    split at h <;> (cases next_injective h; rfl)
  case call a =>
    change execCall a s = _ at h
    rw [execCall, push_unbounded] at h
    cases next_injective h; rfl
  case seImm => cases next_injective h; exact skipIf_frame _ _
  case sneImm => cases next_injective h; exact skipIf_frame _ _
  case seReg => cases next_injective h; exact skipIf_frame _ _
  case sneReg => cases next_injective h; exact skipIf_frame _ _
  case addReg => cases next_injective h; exact writeResultAndFlag_frame _ _ _ _
  case sub => cases next_injective h; exact writeResultAndFlag_frame _ _ _ _
  case shr => cases next_injective h; exact writeResultAndFlag_frame _ _ _ _
  case subn => cases next_injective h; exact writeResultAndFlag_frame _ _ _ _
  case shl => cases next_injective h; exact writeResultAndFlag_frame _ _ _ _
  case drw x y n =>
    change execDrw x y n s = _ at h
    have hn := n.isLt
    obtain ⟨u, hf, ⟨c, hu⟩ | ⟨e, hu⟩⟩ := drawRows_frame (ia := some s.instrAddr) (vx := s.reg x) (n := n.toNat) (addr := s.dataAddr)
      (y := s.reg y) (c := false) (s := s) (by omega)
    all_goals (rw [execDrw, hu] at h; cases next_injective h; rw [hf]; rfl)
  case skp x =>
    change execSkp x s = _ at h
    rcases keyOperand_cases x s with ⟨k, hk⟩ | ⟨e, hk⟩
    · rw [execSkp, hk] at h
      cases next_injective h
      simp only [Changes, skipIf]; split <;> rfl
    · rw [execSkp, hk] at h; cases next_injective h; rfl
  case sknp x =>
    change execSknp x s = _ at h
    rcases keyOperand_cases x s with ⟨k, hk⟩ | ⟨e, hk⟩
    · rw [execSknp, hk] at h
      cases next_injective h
      simp only [Changes, skipIf]; split <;> rfl
    · rw [execSknp, hk] at h; cases next_injective h; rfl
  case ldVxK x =>
    change execLdVxK x s = _ at h
    unfold execLdVxK takeAnyPressed at h
    cases hl : ({ s with halted := true } : State).lowestPressed <;> rw [hl] at h <;> (cases next_injective h; rfl)
  case ldBVx x =>
    change execLdBVx x s = _ at h
    obtain ⟨m, hm | ⟨e, hm⟩⟩ := storeBytes_changes (ia := some s.instrAddr) (a := s.dataAddr) (bs := bcdDigits (s.reg x)) (s := s)
    all_goals (rw [execLdBVx, hm] at h; cases next_injective h; rfl)
  case ldMemVx x =>
    change execLdMemVx x s = _ at h
    obtain ⟨m, hm | ⟨e, hm⟩⟩ :=
      storeBytes_changes (ia := some s.instrAddr) (a := s.dataAddr) (bs := (regsUpTo x).map s.reg) (s := s)
    all_goals (rw [execLdMemVx, hm] at h; cases next_injective h; rfl)
  case ldVxMem x =>
    change execLdVxMem x s = _ at h
    obtain ⟨v, hv | ⟨e, hv⟩⟩ := loadRegs_frame (ia := some s.instrAddr) (a := s.dataAddr) (rs := regsUpTo x) (s := s)
    all_goals (rw [execLdVxMem, hv] at h; cases next_injective h; rfl)
  all_goals (cases next_injective h; rfl)

end Sys2Proof.Machine
end

