-- ==== Sys2Proof/Laws/PerInstr.lean ====
section
/-! SUPPORT. Per instruction: the word the encoder writes belongs to the row of spec/opcode_table.json that has its mnemonic (R83, R87). -/

namespace Sys2Proof.Laws.TableRow

/-- The row of the opcode table with the mnemonic of the instruction fits its word. -/
def Statement (i : Instr) : Prop := ∃ r, r ∈ opcodeTable ∧ r.mnemonic = i.mnemonic ∧ r.fits (encode i) = true

theorem cls : Statement .cls :=
  ⟨⟨"CLS", 0xFFFF, 0x00E0⟩, by decide, rfl, by decide⟩

theorem ret : Statement .ret :=
  ⟨⟨"RET", 0xFFFF, 0x00EE⟩, by decide, rfl, by decide⟩

theorem jp (nnn : Addr12) : Statement (.jp nnn) :=
  ⟨⟨"JP", 0xF000, 0x1000⟩, by decide, rfl, fits_fmtA12 "JP" 0x1 nnn⟩

theorem call (nnn : Addr12) : Statement (.call nnn) :=
  ⟨⟨"CALL", 0xF000, 0x2000⟩, by decide, rfl, fits_fmtA12 "CALL" 0x2 nnn⟩

theorem seImm (x : Reg) (nn : Byte) : Statement (.seImm x nn) :=
  ⟨⟨"SE_imm", 0xF000, 0x3000⟩, by decide, rfl, fits_fmtRI8 "SE_imm" 0x3 x nn⟩

theorem sneImm (x : Reg) (nn : Byte) : Statement (.sneImm x nn) :=
  ⟨⟨"SNE_imm", 0xF000, 0x4000⟩, by decide, rfl, fits_fmtRI8 "SNE_imm" 0x4 x nn⟩

theorem seReg (x : Reg) (y : Reg) : Statement (.seReg x y) :=
  ⟨⟨"SE_reg", 0xF00F, 0x5000⟩, by decide, rfl, fits_fmtRRS "SE_reg" 0x5 x y 0x0⟩

theorem ldImm (x : Reg) (nn : Byte) : Statement (.ldImm x nn) :=
  ⟨⟨"LD_imm", 0xF000, 0x6000⟩, by decide, rfl, fits_fmtRI8 "LD_imm" 0x6 x nn⟩

theorem addImm (x : Reg) (nn : Byte) : Statement (.addImm x nn) :=
  ⟨⟨"ADD_imm", 0xF000, 0x7000⟩, by decide, rfl, fits_fmtRI8 "ADD_imm" 0x7 x nn⟩

theorem ldReg (x : Reg) (y : Reg) : Statement (.ldReg x y) :=
  ⟨⟨"LD_reg", 0xF00F, 0x8000⟩, by decide, rfl, fits_fmtRRS "LD_reg" 0x8 x y 0x0⟩

theorem orReg (x : Reg) (y : Reg) : Statement (.orReg x y) :=
  ⟨⟨"OR", 0xF00F, 0x8001⟩, by decide, rfl, fits_fmtRRS "OR" 0x8 x y 0x1⟩

theorem andReg (x : Reg) (y : Reg) : Statement (.andReg x y) :=
  ⟨⟨"AND", 0xF00F, 0x8002⟩, by decide, rfl, fits_fmtRRS "AND" 0x8 x y 0x2⟩

theorem xorReg (x : Reg) (y : Reg) : Statement (.xorReg x y) :=
  ⟨⟨"XOR", 0xF00F, 0x8003⟩, by decide, rfl, fits_fmtRRS "XOR" 0x8 x y 0x3⟩

theorem addReg (x : Reg) (y : Reg) : Statement (.addReg x y) :=
  ⟨⟨"ADD_reg", 0xF00F, 0x8004⟩, by decide, rfl, fits_fmtRRS "ADD_reg" 0x8 x y 0x4⟩

theorem sub (x : Reg) (y : Reg) : Statement (.sub x y) :=
  ⟨⟨"SUB", 0xF00F, 0x8005⟩, by decide, rfl, fits_fmtRRS "SUB" 0x8 x y 0x5⟩

theorem shr (x : Reg) (y : Reg) : Statement (.shr x y) :=
  ⟨⟨"SHR", 0xF00F, 0x8006⟩, by decide, rfl, fits_fmtRRS "SHR" 0x8 x y 0x6⟩

theorem subn (x : Reg) (y : Reg) : Statement (.subn x y) :=
  ⟨⟨"SUBN", 0xF00F, 0x8007⟩, by decide, rfl, fits_fmtRRS "SUBN" 0x8 x y 0x7⟩

theorem shl (x : Reg) (y : Reg) : Statement (.shl x y) :=
  ⟨⟨"SHL", 0xF00F, 0x800E⟩, by decide, rfl, fits_fmtRRS "SHL" 0x8 x y 0xE⟩

theorem sneReg (x : Reg) (y : Reg) : Statement (.sneReg x y) :=
  ⟨⟨"SNE_reg", 0xF00F, 0x9000⟩, by decide, rfl, fits_fmtRRS "SNE_reg" 0x9 x y 0x0⟩

theorem ldI (nnn : Addr12) : Statement (.ldI nnn) :=
  ⟨⟨"LD_I", 0xF000, 0xA000⟩, by decide, rfl, fits_fmtA12 "LD_I" 0xA nnn⟩

theorem jpV0 (nnn : Addr12) : Statement (.jpV0 nnn) :=
  ⟨⟨"JP_V0", 0xF000, 0xB000⟩, by decide, rfl, fits_fmtA12 "JP_V0" 0xB nnn⟩

theorem rnd (x : Reg) (nn : Byte) : Statement (.rnd x nn) :=
  ⟨⟨"RND", 0xF000, 0xC000⟩, by decide, rfl, fits_fmtRI8 "RND" 0xC x nn⟩

theorem drw (x : Reg) (y : Reg) (n : Nibble) : Statement (.drw x y n) :=
  ⟨⟨"DRW", 0xF000, 0xD000⟩, by decide, rfl, fits_fmtRRN "DRW" 0xD x y n⟩

theorem skp (x : Reg) : Statement (.skp x) :=
  ⟨⟨"SKP", 0xF0FF, 0xE09E⟩, by decide, rfl, fits_fmtRS8 "SKP" 0xE x 0x9E⟩

theorem sknp (x : Reg) : Statement (.sknp x) :=
  ⟨⟨"SKNP", 0xF0FF, 0xE0A1⟩, by decide, rfl, fits_fmtRS8 "SKNP" 0xE x 0xA1⟩

theorem ldVxDT (x : Reg) : Statement (.ldVxDT x) :=
  ⟨⟨"LD_Vx_DT", 0xF0FF, 0xF007⟩, by decide, rfl, fits_fmtRS8 "LD_Vx_DT" 0xF x 0x07⟩

theorem ldVxK (x : Reg) : Statement (.ldVxK x) :=
  ⟨⟨"LD_Vx_K", 0xF0FF, 0xF00A⟩, by decide, rfl, fits_fmtRS8 "LD_Vx_K" 0xF x 0x0A⟩

theorem ldDTVx (x : Reg) : Statement (.ldDTVx x) :=
  ⟨⟨"LD_DT_Vx", 0xF0FF, 0xF015⟩, by decide, rfl, fits_fmtRS8 "LD_DT_Vx" 0xF x 0x15⟩

theorem ldSTVx (x : Reg) : Statement (.ldSTVx x) :=
  ⟨⟨"LD_ST_Vx", 0xF0FF, 0xF018⟩, by decide, rfl, fits_fmtRS8 "LD_ST_Vx" 0xF x 0x18⟩

theorem addIVx (x : Reg) : Statement (.addIVx x) :=
  ⟨⟨"ADD_I_Vx", 0xF0FF, 0xF01E⟩, by decide, rfl, fits_fmtRS8 "ADD_I_Vx" 0xF x 0x1E⟩

theorem ldFVx (x : Reg) : Statement (.ldFVx x) :=
  ⟨⟨"LD_F_Vx", 0xF0FF, 0xF029⟩, by decide, rfl, fits_fmtRS8 "LD_F_Vx" 0xF x 0x29⟩

theorem ldBVx (x : Reg) : Statement (.ldBVx x) :=
  ⟨⟨"LD_B_Vx", 0xF0FF, 0xF033⟩, by decide, rfl, fits_fmtRS8 "LD_B_Vx" 0xF x 0x33⟩

theorem ldMemVx (x : Reg) : Statement (.ldMemVx x) :=
  ⟨⟨"LD_mem_Vx", 0xF0FF, 0xF055⟩, by decide, rfl, fits_fmtRS8 "LD_mem_Vx" 0xF x 0x55⟩

theorem ldVxMem (x : Reg) : Statement (.ldVxMem x) :=
  ⟨⟨"LD_Vx_mem", 0xF0FF, 0xF065⟩, by decide, rfl, fits_fmtRS8 "LD_Vx_mem" 0xF x 0x65⟩

end Sys2Proof.Laws.TableRow
end

