-- ==== Sys2Proof/Laws/SoundTimer.lean ====
section
/-! SUPPORT. No shared operation reads ST: each commutes with giving ST another value (spec/10_state.md R38). -/

namespace Sys2Proof.Machine

/-- The result with another value in ST. -/
def Res.withSt {α : Type} (b : Byte) : Res α → Res α
  | .ok a s => .ok a { s with st := b }
  | .raised s => .raised { s with st := b }

theorem Res.bind_withSt {α β : Type} (b : Byte) (r : Res α) (f : α → State → Res β)
    (h : ∀ a s, f a { s with st := b } = Res.withSt b (f a s)) : (Res.withSt b r).bind f = Res.withSt b (r.bind f) := by
  cases r with
  | ok a s => exact h a s
  | raised s => rfl

theorem memRead_withSt (b : Byte) (ia : Option Word) (a : Nat) (s : State) :
    memRead ia a { s with st := b } = Res.withSt b (memRead ia a s) := by
  unfold memRead; split <;> rfl

theorem memWrite_withSt (b : Byte) (ia : Option Word) (a : Nat) (v : Byte) (s : State) :
    memWrite ia a v { s with st := b } = Res.withSt b (memWrite ia a v s) := by
  unfold memWrite; split <;> rfl

theorem storeBytes_withSt (b : Byte) (ia : Option Word) : ∀ (bs : List Byte) (a : Nat) (s : State),
    storeBytes ia a bs { s with st := b } = Res.withSt b (storeBytes ia a bs s)
  | [], _, _ => rfl
  | x :: bs, a, s => by
    rw [storeBytes, storeBytes, memWrite_withSt]
    exact Res.bind_withSt b _ _ fun _ t => storeBytes_withSt b ia bs (a + 1) t

theorem loadRegs_withSt (b : Byte) (ia : Option Word) : ∀ (rs : List Reg) (a : Nat) (s : State),
    loadRegs ia a rs { s with st := b } = Res.withSt b (loadRegs ia a rs s)
  | [], _, _ => rfl
  | x :: rs, a, s => by
    rw [loadRegs, loadRegs, memRead_withSt]
    exact Res.bind_withSt b _ _ fun v t => loadRegs_withSt b ia rs (a + 1) (t.setReg x v)

theorem drawBits_withSt (b vx : Byte) (row : Row) (byte : Byte) : ∀ (n : Nat) (s : State) (c : Bool),
    drawBits vx row byte n { s with st := b } c =
      ({ (drawBits vx row byte n s c).1 with st := b }, (drawBits vx row byte n s c).2)
  | 0, _, _ => rfl
  | n + 1, s, c => by
    rw [drawBits, drawBits]
    exact drawBits_withSt b vx row byte n (setPixel (pixelCol vx n) row (byte.getLsbD n) s).1
      (c || (setPixel (pixelCol vx n) row (byte.getLsbD n) s).2)

theorem drawRows_withSt (b : Byte) (ia : Option Word) (vx : Byte) : ∀ (n a : Nat) (y : Byte) (c : Bool) (s : State),
    drawRows ia vx n a y c { s with st := b } = Res.withSt b (drawRows ia vx n a y c s)
  | 0, _, _, _, _ => rfl
  | n + 1, a, y, c, s => by
    rw [drawRows, drawRows, memRead_withSt]
    refine Res.bind_withSt b _ _ fun v t => ?_
    rw [drawBits_withSt]
    exact drawRows_withSt b ia vx n _ _ _ _

theorem fetch_withSt (b : Byte) (s : State) : fetch { s with st := b } = Res.withSt b (fetch s) := by
  unfold fetch
  rw [show memRead _ _ _ = Res.withSt b _ from memRead_withSt b _ _ s]
  refine Res.bind_withSt b _ _ fun hi t => ?_
  rw [show memRead _ _ _ = Res.withSt b _ from memRead_withSt b _ _ t]
  exact Res.bind_withSt b _ _ fun lo v => rfl

theorem keyOperand_withSt (b : Byte) (x : Reg) (s : State) :
    keyOperand x { s with st := b } = Res.withSt b (keyOperand x s) := by
  unfold keyOperand
  cases h : keyOf (s.reg x) <;> simp [State.reg] at h ⊢ <;> rw [h] <;> rfl

end Sys2Proof.Machine
end

