-- ==== Sys2Proof/Laws/Step.lean ====
section
/-! SUPPORT. The fetch of a step, the program load, the two frames of a register write, and FX0A: what each can do, said once in
the terms the statements use. -/

namespace Sys2Proof.Machine

/-! ## The fetch of a step -/

theorem rewind_eq (s : State) : rewind s = { s with pc := s.fetchAddr } := by
  unfold rewind State.fetchAddr; split <;> rfl

theorem fetchAddr_halted {s : State} (h : s.halted = true) : s.fetchAddr = s.pc - 2 := by simp [State.fetchAddr, h]

theorem fetchAddr_running {s : State} (h : s.halted = false) : s.fetchAddr = s.pc := by simp [State.fetchAddr, h]

/-- The fetch of a step whose two bytes lie inside memory. -/
theorem fetch_rewind_inside {s : State} (h : s.fetchAddr.toNat + 1 < 4096) :
    fetch (rewind s) = .ok (s.wordAt s.fetchAddr) { s with pc := s.fetchAddr + 2 } := by
  rw [rewind_eq, fetch_inside (by exact h)]; rfl

/-- Only a core that is not faulted answers a next state. -/
theorem fault_none_of_next {s t : State} (h : step s = .next t) : s.fault = none := by
  cases hf : s.fault with
  | none => rfl
  | some f => simp [step, hf] at h

/-! ## The program load -/

theorem loadProgram_fits {p : List Byte} {s : State} (h : p.length ≤ 3584) :
    loadProgram p s = { s with mem := s.mem.writeList 0x200 p } := by
  rw [loadProgram, storeBytes_inside (by simp only [Config.progBase, Config.memSize]; omega)]

theorem loadProgram_over {p : List Byte} {s : State} (h : 3584 < p.length) :
    loadProgram p s =
      { s with mem := s.mem.writeList 0x200 (p.take 3584), fault := some (.memoryOutOfBounds 0x1000 .write none) } := by
  rw [loadProgram, storeBytes_outside (by rintro rfl; simp at h) (by simp only [Config.progBase, Config.memSize]; omega)]
  rfl

/-! ## Register writes -/

theorem zext12_toNat (a : Addr12) : (zext12 a).toNat = a.toNat := by simp [zext12]; omega

theorem zext8_toNat (a : Byte) : (zext8 a).toNat = a.toNat := by simp [zext8]; omega

theorem writesReg_setReg (x : Reg) {b c : Byte} (s : State) (h : b = c) : WritesReg x c s (s.setReg x b) :=
  h ▸ ⟨rfl, reg_setReg_self _ _ _, fun _ hr => reg_setReg_ne _ _ hr⟩

theorem writesRegAndFlag_writeResultAndFlag (x : Reg) {b c : Byte} {f : Bool} {p : Prop} [Decidable p] (s : State) (hb : b = c)
    (hp : f = true ↔ p) : WritesRegAndFlag x c p s (writeResultAndFlag x b f s) := by
  subst hb
  refine ⟨rfl, ?_, fun h => ?_, fun r h1 h2 => ?_⟩
  · show (State.setReg _ VF _).reg VF = _
    rw [reg_setReg_self, flagByte]; simp only [hp]
  · show (State.setReg _ VF _).reg x = _
    rw [reg_setReg_ne _ _ h, reg_setReg_self]
  · show (State.setReg _ VF _).reg r = _
    rw [reg_setReg_ne _ _ h2, reg_setReg_ne _ _ h1]

/-- The word of an instruction of format RRS or RRN, with its two operand fields last. -/
theorem fmtRRS_toNat' (f : Nibble) (x y : Reg) (n : Nibble) {k : Nat} (h : k = f.toNat * 4096 + n.toNat) :
    (fmtRRS f x y n).toNat = k + x.val * 256 + y.val * 16 := by
  rw [fmtRRS_toNat]; omega

/-- The word of an instruction of format RS8, with its operand field last. -/
theorem fmtRS8_toNat' (f : Nibble) (x : Reg) (n : Byte) {k : Nat} (h : k = f.toNat * 4096 + n.toNat) :
    (fmtRS8 f x n).toNat = k + x.val * 256 := by
  rw [fmtRS8, fmtRI8_toNat]; omega

/-! ## Storing from I on -/

theorem bcdDigits_getElem (b : Byte) (j : Nat) (hj : j < (bcdDigits b).length) : (bcdDigits b)[j] =
    BitVec.ofNat 8 (if j = 0 then b.toNat / 100 else if j = 1 then b.toNat / 10 % 10 else b.toNat % 10) := by
  have hj' : j < 3 := hj
  revert b; interval_cases j <;> simp only [bcdDigits] <;> decide

/-- A store that fits in memory: what it reads as afterwards. -/
theorem storeBytes_fits {ia : Option Word} {bs : List Byte} {s : State} (hw : s.mem.wf = true)
    (h : s.dataAddr + bs.length ≤ 4096) :
    ∃ m, storeBytes ia s.dataAddr bs s = .ok () { s with mem := m } ∧
      (∀ j (hj : j < bs.length), m.read (s.dataAddr + j) = bs[j]) ∧
      ∀ a, (a < s.dataAddr ∨ s.dataAddr + bs.length ≤ a) → m.read a = s.mem.read a :=
  ⟨_, storeBytes_inside h, fun _ hj => Memory.read_writeList hw h hj, fun _ ha => Memory.read_writeList_ne ha⟩

/-- A store that leaves memory: the bytes before the end stand. -/
theorem storeBytes_over {ia : Option Word} {bs : List Byte} {s : State} (hw : s.mem.wf = true) (hn : bs ≠ [])
    (h : 4096 < s.dataAddr + bs.length) :
    ∃ m, storeBytes ia s.dataAddr bs s =
        .raised { s with mem := m, fault := some (.memoryOutOfBounds (max s.dataAddr 4096) .write ia) } ∧
      (∀ j (hj : j < bs.length), s.dataAddr + j < 4096 → m.read (s.dataAddr + j) = bs[j]) ∧
      ∀ a, (a < s.dataAddr ∨ 4096 ≤ a) → m.read a = s.mem.read a := by
  refine ⟨_, storeBytes_outside hn h, fun j hj hlt => ?_, fun a ha => Memory.read_writeList_ne ?_⟩
  · have hl : (bs.take (Config.memSize - s.dataAddr)).length = Config.memSize - s.dataAddr := by
      rw [List.length_take]; simp only [Config.memSize]; omega
    rw [Memory.read_writeList (bs := bs.take (Config.memSize - s.dataAddr)) hw (by rw [hl]; simp only [Config.memSize]; omega)
      (by rw [hl]; simp only [Config.memSize]; omega), List.getElem_take]
  · by_cases h2 : a < s.dataAddr
    · exact .inl h2
    · right; rw [List.length_take]; simp only [Config.memSize]; omega

/-- However a store ends, memory stays canonical and `halted` stays. -/
theorem storeBytes_wf {ia : Option Word} : ∀ {bs : List Byte} {a : Nat} {s t : State}, s.mem.wf = true →
    (storeBytes ia a bs s = .ok () t ∨ storeBytes ia a bs s = .raised t) → t.mem.wf = true ∧ t.halted = s.halted
  | [], _, s, t, hw, h => by
    rcases h with h | h <;> cases h; exact ⟨hw, rfl⟩
  | b :: bs, a, s, t, hw, h => by
    rw [storeBytes] at h
    by_cases ha : a < Config.memSize
    · rw [memWrite_inside ha, Res.bind_ok] at h
      exact storeBytes_wf (s := { s with mem := s.mem.write a b }) (Memory.write_wf b hw ha) h
    · rw [memWrite_outside (by omega)] at h
      rcases h with h | h <;> cases h; exact ⟨hw, rfl⟩

/-! ## FX0A -/

theorem decodeWord_ldVxK (x : Reg) : decodeWord (encode (.ldVxK x)) = .ok (.ldVxK x) := by
  simp [encode, decodeWord, decodeF]

theorem exec_ldVxK_none {s : State} {x : Reg} (h : ∀ k : Key, s.key[k] = false) :
    exec (.ldVxK x) s = .next { s with halted := true } := by
  show execLdVxK x s = _
  rw [execLdVxK, takeAnyPressed_none (by exact h)]

theorem exec_ldVxK_some {s : State} {x : Reg} {k : Key} (hk : s.key[k] = true) (hl : ∀ j : Key, j < k → s.key[j] = false) :
    exec (.ldVxK x) s =
      .next (({ s with key := s.key.set k false, halted := false } : State).setReg x (BitVec.ofNat 8 k.val)) := by
  show execLdVxK x s = _
  rw [execLdVxK, takeAnyPressed_some (k := k) (by exact hk) (by exact hl)]
  rfl

end Sys2Proof.Machine
end

