-- ==== Sys2Proof/Tests/Slice0.lean ====
section
/-! SUPPORT. Tests: words outside the table, one decoded word per constructor, single steps with the results of
spec/95_test_vectors.md (named by its vector), and a witness for every hypothesis of the obligations. -/

namespace Sys2Proof.Tests

open Sys2Proof Sys2Proof.Machine

/-! ## Helpers -/

/-- Right after reset with the word placed at 0x200. -/
def start (w : Nat) : State := State.reset.withFetchWord 16 w

/-- The step answers a next state with this property. -/
def stepTo (s : State) (p : State → Bool) : Bool :=
  match step s with
  | .next t => p t
  | _ => false

/-- The next state, where there is one. -/
def after (s : State) : State :=
  match step s with
  | .next t => t
  | _ => s

theorem step_after {s : State} (h : stepTo s (fun _ => true) = true) : step s = .next (after s) := by
  unfold stepTo at h; unfold after; cases hs : step s <;> simp [hs] at h ⊢

/-- The listed bytes stored from an address on. -/
def poke (s : State) : Nat → List Byte → State
  | _, [] => s
  | a, b :: bs => poke { s with mem := s.mem.write a b } (a + 1) bs

/-! ## Words that are no instruction (T4 to T11 of spec/95, R88) -/

theorem test_illegal_family0 : (legalWord 0x0000 || legalWord 0x0123 || legalWord 0x00E1) = false := by decide
theorem test_illegal_family5 : legalWord 0x5121 = false ∧ decodeWord 0x5121 = .error (.family5 0x5121) := by decide
theorem test_illegal_family8 : legalWord 0x8128 = false ∧ decodeWord 0x8128 = .error (.family8 0x8128) := by decide
theorem test_illegal_family9 : legalWord 0x9121 = false ∧ decodeWord 0x9121 = .error (.family9 0x9121) := by decide
theorem test_illegal_familyE : legalWord 0xE1FF = false ∧ decodeWord 0xE1FF = .error (.familyE 0xE1FF) := by decide
theorem test_illegal_familyF : legalWord 0xF1FF = false ∧ decodeWord 0xF1FF = .error (.familyF 0xF1FF) := by decide
theorem test_illegal_zero : decodeWord 0x0000 = .error (.family0 0x0000) ∧ decodeTableWord 16 0x00E1 = none := by decide
theorem test_truncated : decode [0x00] = .error .truncated ∧ decode [] = .error .truncated := by decide

/-- No two rows of the table share a word (R87). -/
theorem test_rows_apart : opcodeTable.Pairwise (fun r q => r.apart q = true) := by decide

/-- Every constructor's mnemonic is a row of the table. -/
theorem test_table_size : opcodeTable.length = 34 ∧ (opcodeTable.map (·.mnemonic)).Nodup := by decide

/-! ## One word per constructor, written out from the formats of R83 and the patterns of R87 -/

theorem test_decode_cls : decodeWord 0b0000000011100000 = .ok .cls := by decide
theorem test_decode_ret : decodeWord 0b0000000011101110 = .ok .ret := by decide
theorem test_decode_jp : decodeWord 0b0001101010111100 = .ok (.jp 0xABC) := by decide
theorem test_decode_call : decodeWord 0b0010000100100011 = .ok (.call 0x123) := by decide
theorem test_decode_seImm : decodeWord 0b0011000110100010 = .ok (.seImm 1 0xA2) := by decide
theorem test_decode_sneImm : decodeWord 0b0100001010110011 = .ok (.sneImm 2 0xB3) := by decide
theorem test_decode_seReg : decodeWord 0b0101000100100000 = .ok (.seReg 1 2) := by decide
theorem test_decode_ldImm : decodeWord 0b0110101001111111 = .ok (.ldImm 10 0x7F) := by decide
theorem test_decode_addImm : decodeWord 0b0111000000000101 = .ok (.addImm 0 5) := by decide
theorem test_decode_ldReg : decodeWord 0b1000000100100000 = .ok (.ldReg 1 2) := by decide
theorem test_decode_orReg : decodeWord 0b1000000100100001 = .ok (.orReg 1 2) := by decide
theorem test_decode_andReg : decodeWord 0b1000000100100010 = .ok (.andReg 1 2) := by decide
theorem test_decode_xorReg : decodeWord 0b1000000100100011 = .ok (.xorReg 1 2) := by decide
theorem test_decode_addReg : decodeWord 0b1000000100100100 = .ok (.addReg 1 2) := by decide
theorem test_decode_sub : decodeWord 0b1000000100100101 = .ok (.sub 1 2) := by decide
theorem test_decode_shr : decodeWord 0b1000000100100110 = .ok (.shr 1 2) := by decide
theorem test_decode_subn : decodeWord 0b1000000100100111 = .ok (.subn 1 2) := by decide
theorem test_decode_shl : decodeWord 0b1000000100101110 = .ok (.shl 1 2) := by decide
theorem test_decode_sneReg : decodeWord 0b1001000100100000 = .ok (.sneReg 1 2) := by decide
theorem test_decode_ldI : decodeWord 0b1010001011110000 = .ok (.ldI 0x2F0) := by decide
theorem test_decode_jpV0 : decodeWord 0b1011001100000001 = .ok (.jpV0 0x301) := by decide
theorem test_decode_rnd : decodeWord 0b1100001100001111 = .ok (.rnd 3 0x0F) := by decide
theorem test_decode_drw : decodeWord 0b1101000000010101 = .ok (.drw 0 1 5) := by decide
theorem test_decode_skp : decodeWord 0b1110000110011110 = .ok (.skp 1) := by decide
theorem test_decode_sknp : decodeWord 0b1110000110100001 = .ok (.sknp 1) := by decide
theorem test_decode_ldVxDT : decodeWord 0b1111001100000111 = .ok (.ldVxDT 3) := by decide
theorem test_decode_ldVxK : decodeWord 0b1111010100001010 = .ok (.ldVxK 5) := by decide
theorem test_decode_ldDTVx : decodeWord 0b1111001100010101 = .ok (.ldDTVx 3) := by decide
theorem test_decode_ldSTVx : decodeWord 0b1111001100011000 = .ok (.ldSTVx 3) := by decide
theorem test_decode_addIVx : decodeWord 0b1111010100011110 = .ok (.addIVx 5) := by decide
theorem test_decode_ldFVx : decodeWord 0b1111101000101001 = .ok (.ldFVx 10) := by decide
theorem test_decode_ldBVx : decodeWord 0b1111001100110011 = .ok (.ldBVx 3) := by decide
theorem test_decode_ldMemVx : decodeWord 0b1111001001010101 = .ok (.ldMemVx 2) := by decide
theorem test_decode_ldVxMem : decodeWord 0b1111001001100101 = .ok (.ldVxMem 2) := by decide

/-- The first byte of a pair is the high one (R64: `6005` is 0x60 0x05). -/
theorem test_decode_bytes : decode [0x60, 0x05, 0xAA] = .ok (.ldImm 0 5, [0xAA]) := by decide

/-! ## Single steps -/

/-- T138 -/
theorem test_reset_steps_to_decode_error : stepTo State.reset (fun t =>
    t == { State.reset with pc := 0x202, fault := some (.decodeError 0x0000 0x200) }) = true := by decide

/-- T1 -/
theorem test_odd_pc : stepTo (poke { State.reset with pc := 0x201 } 0x201 [0x60, 0x05])
    (fun t => t.reg 0 == 5 && t.pc == 0x203) = true := by decide

/-- T2 -/
theorem test_fetch_at_edge : stepTo { State.reset with pc := 0xFFF } (fun t =>
    t.pc == 0xFFF && t.fault == some (.memoryOutOfBounds 0x1000 .read (some 0xFFF))) = true := by decide

/-- T3 -/
theorem test_fetch_outside : stepTo { State.reset with pc := 0x1000 } (fun t =>
    t.pc == 0x1000 && t.fault == some (.memoryOutOfBounds 0x1000 .read (some 0x1000))) = true := by decide

/-- S9 -/
theorem test_ret_underflow : stepTo (start 0x00EE) (fun t => t.pc == 0x202 && t.fault == some (.stackUnderflow 0x200)) = true := by
  decide

/-- P2, step 5 -/
theorem test_ret : stepTo { start 0x00EE with stack := [0x123, 0x202] } (fun t => t.pc == 0x202 && t.stack == [0x123]) = true := by
  decide

/-- P2, step 1 -/
theorem test_call : stepTo (start 0x220A) (fun t => t.pc == 0x20A && t.stack == [0x202]) = true := by decide

/-- T140 -/
theorem test_jp : stepTo (start 0x1204) (fun t => t.pc == 0x204) = true := by decide

/-- R124: 0xFFF + 0xFF is not reduced to 12 bits. -/
theorem test_jpV0 : stepTo ((start 0xBFFF).setReg 0 0xFF) (fun t => t.pc == 0x10FE) = true := by decide

/-- T35 -/
theorem test_seImm_vf : stepTo ((start 0x3F01).setReg VF 1) (fun t => t.pc == 0x204) = true := by decide

/-- R127 -/
theorem test_sneImm : stepTo (start 0x4101) (fun t => t.pc == 0x204) = true := by decide

/-- T31 -/
theorem test_seReg : stepTo (((start 0x5120).setReg 1 7).setReg 2 7) (fun t => t.pc == 0x204) = true := by decide

/-- T33 -/
theorem test_sneReg : stepTo (((start 0x9120).setReg 1 7).setReg 2 8) (fun t => t.pc == 0x204) = true := by decide

/-- T34 -/
theorem test_sneReg_same : stepTo (start 0x9110) (fun t => t.pc == 0x202) = true := by decide

/-- S1 -/
theorem test_ldImm : stepTo (start 0x6A7F) (fun t => t.reg 10 == 0x7F && t.pc == 0x202) = true := by decide

/-- T41 -/
theorem test_addImm_wraps : stepTo ((start 0x7005).setReg 0 0xFE) (fun t => t.reg 0 == 3 && t.reg VF == 0) = true := by decide

/-- T42 -/
theorem test_addImm_vf : stepTo ((start 0x7F01).setReg VF 0xFF) (fun t => t.reg VF == 0) = true := by decide

/-- T43 -/
theorem test_ldReg : stepTo ((start 0x8120).setReg 2 0x33) (fun t => t.reg 1 == 0x33 && t.reg 2 == 0x33) = true := by decide

/-- T45 -/
theorem test_or_keeps_vf : stepTo ((((start 0x8121).setReg 1 0x0F).setReg 2 0xF0).setReg VF 1)
    (fun t => t.reg 1 == 0xFF && t.reg VF == 1) = true := by decide

/-- T46 -/
theorem test_and : stepTo (((start 0x8122).setReg 1 0x3C).setReg 2 0x0F) (fun t => t.reg 1 == 0x0C) = true := by decide

/-- T47 -/
theorem test_xor : stepTo (((start 0x8123).setReg 1 0x3C).setReg 2 0x0F) (fun t => t.reg 1 == 0x33) = true := by decide

/-- S2 -/
theorem test_add_carry : stepTo (((start 0x8124).setReg 1 0xC8).setReg 2 0x64)
    (fun t => t.reg 1 == 0x2C && t.reg VF == 1) = true := by decide

/-- T51: the flag is written last. -/
theorem test_add_into_vf : stepTo (((start 0x8F14).setReg VF 0xFF).setReg 1 1) (fun t => t.reg VF == 1) = true := by decide

/-- S3 -/
theorem test_sub_borrow : stepTo (((start 0x8125).setReg 1 5).setReg 2 7) (fun t => t.reg 1 == 0xFE && t.reg VF == 0) = true := by
  decide

/-- T53 -/
theorem test_sub_into_vf : stepTo (((start 0x8F15).setReg VF 5).setReg 1 7) (fun t => t.reg VF == 0) = true := by decide

/-- T54: the source is V[Y]. -/
theorem test_shr : stepTo (((start 0x8126).setReg 2 5).setReg 1 0xAA)
    (fun t => t.reg 1 == 2 && t.reg VF == 1 && t.reg 2 == 5) = true := by decide

/-- T57 -/
theorem test_shr_from_vf : stepTo ((start 0x81F6).setReg VF 5) (fun t => t.reg 1 == 2 && t.reg VF == 1) = true := by decide

/-- T59 -/
theorem test_subn : stepTo (((start 0x8127).setReg 1 5).setReg 2 7) (fun t => t.reg 1 == 2 && t.reg VF == 1) = true := by decide

/-- T60 -/
theorem test_subn_borrow : stepTo ((start 0x8127).setReg 1 1) (fun t => t.reg 1 == 0xFF && t.reg VF == 0) = true := by decide

/-- T62 -/
theorem test_shl : stepTo ((start 0x812E).setReg 2 0x81) (fun t => t.reg 1 == 2 && t.reg VF == 1 && t.reg 2 == 0x81) = true := by
  decide

/-- T63 -/
theorem test_shl_clear : stepTo ((start 0x812E).setReg 2 0x7F) (fun t => t.reg 1 == 0xFE && t.reg VF == 0) = true := by decide

/-- R157: a step of CXNN adds 2 to pc and keeps VF; the byte itself is free (log 3). -/
theorem test_rnd : stepTo (start 0xC300) (fun t => t.pc == 0x202 && t.reg VF == 0) = true := by decide

/-- T70 -/
theorem test_ldI : stepTo (start 0xA2F0) (fun t => t.i == 0x02F0) = true := by decide

/-- T72 -/
theorem test_addI_past_memory : stepTo { (start 0xF11E).setReg 1 1 with i := 0x0FFF }
    (fun t => t.i == 0x1000 && t.fault == none) = true := by decide

/-- T73 -/
theorem test_addI_wraps : stepTo { (start 0xF11E).setReg 1 2 with i := 0xFFFF } (fun t => t.i == 1 && t.reg VF == 0) = true := by
  decide

/-- T74 -/
theorem test_glyph : stepTo ((start 0xFA29).setReg 10 10) (fun t => t.i == 0x032) = true := by decide

/-- T76: no mask. -/
theorem test_glyph_no_mask : stepTo ((start 0xF129).setReg 1 0xFF) (fun t => t.i == 0x4FB) = true := by decide

/-- T77 -/
theorem test_bcd : stepTo { (start 0xF333).setReg 3 0x9C with i := 0x300 } (fun t =>
    t.mem.read 0x300 == 1 && t.mem.read 0x301 == 5 && t.mem.read 0x302 == 6 && t.i == 0x300) = true := by decide

/-- T80 -/
theorem test_bcd_at_edge : stepTo { (start 0xF333).setReg 3 0xFF with i := 0xFFE } (fun t =>
    t.mem.read 0xFFE == 2 && t.mem.read 0xFFF == 5 &&
      t.fault == some (.memoryOutOfBounds 0x1000 .write (some 0x200))) = true := by decide

/-- T81 -/
theorem test_store_registers : stepTo { (((start 0xF255).setReg 0 0x11).setReg 1 0x22).setReg 2 0x33 with i := 0x400 } (fun t =>
    t.mem.read 0x400 == 0x11 && t.mem.read 0x401 == 0x22 && t.mem.read 0x402 == 0x33 && t.i == 0x403) = true := by decide

/-- T84 -/
theorem test_store_registers_at_edge : stepTo { ((start 0xF155).setReg 0 0x11).setReg 1 0x22 with i := 0xFFF } (fun t =>
    t.mem.read 0xFFF == 0x11 && t.i == 0xFFF && t.fault == some (.memoryOutOfBounds 0x1000 .write (some 0x200))) = true := by
  decide

/-- T88: the font bytes are the default (log 6). -/
theorem test_load_registers : stepTo (start 0xF465) (fun t => t.reg 0 == 0xF0 && t.reg 1 == 0x90 && t.reg 4 == 0xF0 &&
    t.reg 5 == 0 && t.i == 5) = true := by decide

/-- T87 -/
theorem test_load_registers_at_edge : stepTo { poke ((start 0xF165).setReg 1 0x99) 0xFFF [0x77] with i := 0xFFF } (fun t =>
    t.reg 0 == 0x77 && t.reg 1 == 0x99 && t.i == 0xFFF &&
      t.fault == some (.memoryOutOfBounds 0x1000 .read (some 0x200))) = true := by decide

/-- T100, at one cell that was set -/
theorem test_cls : stepTo (setPixel 63 31 true (start 0x00E0)).1 (fun t => !t.getPixel 63 31 && t.reg VF == 0) = true := by decide

/-- T93: the sprite wraps on the right. -/
theorem test_drw_wraps : stepTo { poke ((start 0xD011).setReg 0 60) 0x300 [0xFF] with i := 0x300 } (fun t =>
    t.getPixel 60 0 && t.getPixel 3 0 && !t.getPixel 4 0 && !t.getPixel 59 0 && t.reg VF == 0) = true := by decide

/-- T97: no set bit lands on a set cell. -/
theorem test_drw_no_collision : stepTo { (setPixel 0 0 true (poke (start 0xD011) 0x300 [0x40])).1 with i := 0x300 } (fun t =>
    t.getPixel 1 0 && t.getPixel 0 0 && t.reg VF == 0) = true := by decide

/-- R191 by hand, twice with b = 1 on a set cell: old is 1 and then 0, so the first write answers true, the second false, and the
cell is set again (log 26). -/
theorem test_setPixel_twice_on_set_cell :
    (setPixel 0 0 true (setPixel 0 0 true State.reset).1).2 = true ∧
    (setPixel 0 0 true (setPixel 0 0 true (setPixel 0 0 true State.reset).1).1).2 = false ∧
    (setPixel 0 0 true (setPixel 0 0 true (setPixel 0 0 true State.reset).1).1).1.getPixel 0 0 = true := by decide

/-- T110 -/
theorem test_skp : stepTo (((start 0xE19E).setReg 1 7).setKey 7 true) (fun t => t.pc == 0x204 && t.isPressed 7) = true := by decide

/-- T114 -/
theorem test_skp_out_of_range : stepTo ((start 0xE19E).setReg 1 0x10) (fun t =>
    t.pc == 0x202 && t.fault == some (.keyOutOfRange 0x10 0x200)) = true := by decide

/-- T113 -/
theorem test_sknp_pressed : stepTo (((start 0xE1A1).setReg 1 7).setKey 7 true) (fun t => t.pc == 0x202) = true := by decide

/-- T112 -/
theorem test_sknp : stepTo ((start 0xE1A1).setReg 1 7) (fun t => t.pc == 0x204) = true := by decide

/-- T116 -/
theorem test_wait_takes_lowest : stepTo (((start 0xF20A).setKey 3 true).setKey 9 true) (fun t =>
    t.reg 2 == 3 && !t.isPressed 3 && t.isPressed 9 && !t.halted && t.pc == 0x202) = true := by decide

/-- T119 -/
theorem test_wait_halts : stepTo ((start 0xF50A).setReg 5 0x33) (fun t => t.halted && t.pc == 0x202 && t.reg 5 == 0x33) = true := by
  decide

/-- T130 -/
theorem test_read_dt : stepTo { start 0xF307 with dt := 0x3C } (fun t => t.reg 3 == 0x3C) = true := by decide

/-- T131 -/
theorem test_write_dt : stepTo ((start 0xF315).setReg 3 0x3C) (fun t => t.dt == 0x3C && t.st == 0) = true := by decide

/-- T132 -/
theorem test_write_st : stepTo ((start 0xF318).setReg 3 0x10) (fun t => t.st == 0x10 && t.dt == 0) = true := by decide

/-- T134, T135 -/
theorem test_tick : (tick { State.reset with dt := 1 }).dt = 0 ∧ (tick State.reset).dt = 0 ∧
    (tick { State.reset with st := 0x10 }).st = 0x10 ∧ (tickWith true { State.reset with st := 0x10 }).st = 0x0F := by decide

/-- S8: the load of a program. -/
theorem test_load : (resetWith [0x60, 0x05, 0x70, 0x03] State.reset).mem = [(0x200, 0x60), (0x201, 0x05), (0x202, 0x70), (0x203, 0x03)] := by
  decide

/-- S7: the first glyph (log 6). -/
theorem test_first_glyph : [0, 1, 2, 3, 4].map State.reset.mem.read = [0xF0, 0x90, 0x90, 0x90, 0xF0] := by decide

/-! ## Witnesses: for every statement with hypotheses, a state and operands that meet them, clause by clause at its edges -/

/-- A core whose last step met an empty stack. -/
def faulted : State := { State.reset with fault := some (.stackUnderflow 0x200) }

/-- A core that awaits a key: the state after T119. -/
def waiting : State := { start 0xF50A with pc := 0x202, halted := true }

/-- `LD V0, 0x05` in the last two bytes of memory. -/
def atTop : State := poke { State.reset with pc := 0xFFE } 0xFFE [0x60, 0x05]

theorem test_witness_StepRunsDecodedInstruction : (start 0x6A7F).fault = none ∧ (start 0x6A7F).fetchAddr.toNat + 1 < 4096 ∧
    decodeWord ((start 0x6A7F).wordAt (start 0x6A7F).fetchAddr) = .ok (.ldImm 10 0x7F) := by decide

theorem test_witness_StepRunsDecodedInstruction_top : atTop.fault = none ∧ atTop.fetchAddr.toNat + 1 = 4095 ∧
    decodeWord (atTop.wordAt atTop.fetchAddr) = .ok (.ldImm 0 5) := by decide

theorem test_witness_StepRunsDecodedInstruction_halted : waiting.fault = none ∧ waiting.fetchAddr.toNat + 1 < 4096 ∧
    decodeWord (waiting.wordAt waiting.fetchAddr) = .ok (.ldVxK 5) := by decide

theorem test_witness_FetchIsBigEndian : atTop.pc.toNat + 1 = 4095 ∧ atTop.pc.toNat + 1 < 4096 := by decide

theorem test_witness_FetchOutsideMemoryFaults : ({ State.reset with pc := 0x1000 } : State).fault = none ∧
    4096 ≤ ({ State.reset with pc := 0x1000 } : State).fetchAddr.toNat ∧
    ({ State.reset with pc := 0xFFF } : State).fault = none ∧ ({ State.reset with pc := 0xFFF } : State).fetchAddr.toNat = 4095 := by
  decide

theorem test_witness_IllegalWordFaultsAfterAdvance : State.reset.fault = none ∧ State.reset.fetchAddr.toNat + 1 < 4096 ∧
    decodeWord (State.reset.wordAt State.reset.fetchAddr) = .error (.family0 0) := by decide

theorem test_witness_FaultedCoreIsTerminal : faulted.fault = some (.stackUnderflow 0x200) ∧
    (List.replicate 3584 (0 : Byte)).length ≤ 3584 := ⟨rfl, by rw [List.length_replicate]⟩

theorem test_witness_AwaitingKeyStepPollsAgain_none : waiting.fault = none ∧ waiting.halted = true ∧ waiting.fx0aBefore 5 ∧
    ∀ k : Key, waiting.key[k] = false := by decide

theorem test_witness_AwaitingKeyStepPollsAgain_some : (waiting.setKey 15 true).fault = none ∧
    (waiting.setKey 15 true).halted = true ∧ (waiting.setKey 15 true).fx0aBefore 5 ∧ (waiting.setKey 15 true).key[(15 : Key)] = true ∧
    ∀ j : Key, j < 15 → (waiting.setKey 15 true).key[j] = false := by decide

theorem test_witness_EncodeDecodeRoundTrip : decodeWord 0xDFE9 = .ok (.drw 15 14 9) := by decide

theorem test_witness_DecoderAcceptsExactlyTableWords : (⟨"SKP", 0xF0FF, 0xE09E⟩ : OpRow) ∈ opcodeTable ∧
    OpRow.fits ⟨"SKP", 0xF0FF, 0xE09E⟩ 0xEF9E = true ∧ legalWord 0xEF9E = true ∧ decodeWord 0xEF9E = .ok (.skp 15) := by decide

theorem test_witness_ReturnPopsCallStack : ({ State.reset with stack := [1, 2] } : State).stack = [1] ++ [2] ∧
    State.reset.stack = [] := by decide

theorem test_witness_BoundedStackOverflows : 0 = State.reset.stack.length ∧ 1 ≠ State.reset.stack.length ∧
    1 = ({ State.reset with stack := [5] } : State).stack.length := by decide

theorem test_witness_SkipsOnRegisters : (1 : Nibble) ≠ 0 ∧ (15 : Nibble) ≠ 0 := by decide

theorem test_witness_FlagWrittenLast : (14 : Reg) ≠ VF ∧ (0 : Reg) ≠ VF := by decide

theorem test_witness_RandomByteIsMasked : (0 : Byte) = 0 ∧ (1 : Reg) ≠ 0 := by decide

theorem test_witness_StoreDecimalDigits : State.reset.mem.wf = true ∧
    ({ State.reset with i := 0xFFD } : State).dataAddr + 3 = 4096 ∧ 4096 < ({ State.reset with i := 0xFFE } : State).dataAddr + 3 ∧
    4096 < ({ State.reset with i := 0xFFFF } : State).dataAddr + 3 := by decide

theorem test_witness_StoreRegistersAdvancesIndex : State.reset.mem.wf = true ∧
    ({ State.reset with i := 0xFF0 } : State).dataAddr + (15 : Reg).val + 1 = 4096 ∧
    ({ State.reset with i := 0xFFF } : State).dataAddr + (0 : Reg).val + 1 = 4096 ∧
    4096 < ({ State.reset with i := 0xFF1 } : State).dataAddr + (15 : Reg).val + 1 ∧
    4096 < ({ State.reset with i := 0x1000 } : State).dataAddr + (0 : Reg).val + 1 := by decide

theorem test_witness_LoadRegistersAdvancesIndex : ({ State.reset with i := 0xFF0 } : State).dataAddr + (15 : Reg).val + 1 ≤ 4096 ∧
    4096 < ({ State.reset with i := 0xFFF } : State).dataAddr + (1 : Reg).val + 1 := by decide

theorem test_witness_StoreThenLoadRestoresRegisters : ({ State.reset with i := 0xFFD } : State).mem.wf = true ∧
    ({ State.reset with i := 0xFFD } : State).dataAddr + (2 : Reg).val + 1 ≤ 4096 := by decide

theorem test_witness_DrawSpriteXorsCells : (0 : Nibble) = 0 ∧
    ({ State.reset with i := 0xFF1 } : State).dataAddr + (15 : Nibble).toNat = 4096 ∧ (15 : Nibble) ≠ 0 ∧
    4096 < ({ State.reset with i := 0xFF2 } : State).dataAddr + (15 : Nibble).toNat := by decide

theorem test_witness_DrawTwiceRestoresDisplay : (14 : Reg) ≠ VF ∧ (0 : Reg) ≠ VF ∧ State.reset.dataAddr + (5 : Nibble).toNat ≤ 4096 := by
  decide

theorem test_witness_SkipsOnKey : ((State.reset.setReg 1 15).reg 1).toNat = (15 : Key).val ∧
    16 ≤ ((State.reset.setReg 1 16).reg 1).toNat := by decide

theorem test_witness_WaitForKeyTakesLowest : (∀ k : Key, State.reset.key[k] = false) ∧
    (State.reset.setKey 15 true).key[(15 : Key)] = true ∧ (∀ j : Key, j < 15 → (State.reset.setKey 15 true).key[j] = false) ∧
    (State.reset.setKey 0 true).key[(0 : Key)] = true ∧ ∀ j : Key, j < 0 → (State.reset.setKey 0 true).key[j] = false := by decide

theorem test_witness_TickDecrementsDelayTimer : State.reset.fault = none ∧ ({ State.reset with dt := 1 } : State).fault = none := by
  decide

theorem test_witness_TickDecrementsDelayTimer_fx15 :
    step ((start 0xF315).setReg 3 1) = .next (after ((start 0xF315).setReg 3 1)) ∧
    (after ((start 0xF315).setReg 3 1)).dt ≠ ((start 0xF315).setReg 3 1).dt := ⟨step_after (by decide), by decide⟩

theorem test_witness_TimerInstructions : exec (.ldI 0x2F0) State.reset = .next { State.reset with i := 0x2F0 } ∧
    ∀ z, Instr.ldI 0x2F0 ≠ .ldDTVx z := ⟨rfl, fun z => by simp⟩

theorem test_witness_KeyEventsSetAndClear : State.reset.fault = none ∧ (1 : Key) ≠ 0 := by decide

theorem test_witness_ProgramLoadWritesBytes : (List.replicate 3584 (1 : Byte)).length ≤ 3584 ∧
    3584 < (List.replicate 3585 (1 : Byte)).length ∧ 0 < (List.replicate 3585 (1 : Byte)).length ∧ 0x200 + 0 < 4096 ∧
    HostOp.tick ≠ .step ∧ ∀ q, HostOp.tick ≠ .reset q := by
  simp only [List.length_replicate]; exact ⟨by decide, by decide, by decide, by decide, by decide, fun q => by simp⟩

theorem test_witness_WaitingFrameOnlyTicks : waiting.fault = none ∧ waiting.halted = true ∧ waiting.fx0aBefore 5 ∧
    ∀ k : Key, waiting.key[k] = false := by decide

theorem test_witness_StepKeepsInvariant : (start 0xF50A).Inv ∧ step (start 0xF50A) = .next (after (start 0xF50A)) :=
  ⟨by decide, step_after (by decide)⟩

theorem test_witness_StepKeepsInvariant_halted : waiting.Inv ∧ step waiting = .next (after waiting) :=
  ⟨by decide, step_after (by decide)⟩

theorem test_witness_HostOperationsKeepInvariant : State.reset.Inv ∧ waiting.Inv := by decide

theorem test_witness_OnlyListedRegistersChange : exec (.ldImm 10 0x7F) State.reset = .next (State.reset.setReg 10 0x7F) ∧
    (State.reset.setReg 10 0x7F).reg 10 ≠ State.reset.reg 10 := ⟨rfl, by decide⟩

/-- The instruction answers a next state that differs in this part. -/
def changes {α : Type} [DecidableEq α] (i : Instr) (s : State) (f : State → α) : Bool :=
  match exec i s with
  | .next t => decide (f t ≠ f s)
  | _ => false

theorem exec_of_changes {α : Type} [DecidableEq α] {i : Instr} {s : State} {f : State → α} (h : changes i s f = true) :
    ∃ t, exec i s = .next t ∧ f t ≠ f s := by
  unfold changes at h; cases hs : exec i s with
  | next t => rw [hs] at h; exact ⟨t, rfl, of_decide_eq_true h⟩
  | fault e => rw [hs] at h; cases h
  | refused r => rw [hs] at h; cases h

/-- Every premise of the clauses is met: each piece of state is changed by some instruction. -/
theorem test_witness_StateChangesOnlyByItsWriters :
    (∃ t, exec (.ldI 0x2F0) State.reset = .next t ∧ t.i ≠ State.reset.i) ∧
    (∃ t, exec (.call 0x20A) State.reset = .next t ∧ t.stack ≠ State.reset.stack) ∧
    (∃ t, exec (.ldDTVx 3) (State.reset.setReg 3 1) = .next t ∧ t.dt ≠ (State.reset.setReg 3 1).dt) ∧
    (∃ t, exec (.ldSTVx 3) (State.reset.setReg 3 1) = .next t ∧ t.st ≠ (State.reset.setReg 3 1).st) ∧
    (∃ t, exec (.ldVxK 5) State.reset = .next t ∧ t.halted ≠ State.reset.halted) ∧
    (∃ t, exec (.ldVxK 5) (State.reset.setKey 3 true) = .next t ∧ t.key ≠ (State.reset.setKey 3 true).key) ∧
    (∃ t, exec (.ldMemVx 0) State.reset = .next t ∧ t.mem ≠ State.reset.mem) ∧
    (∃ t, exec .ret State.reset = .next t ∧ t.fault ≠ State.reset.fault) ∧
    (∃ t, exec (.rnd 3 0x0F) State.reset = .next t ∧ t.draws ≠ State.reset.draws) ∧
    (∃ t, exec (.jp 0x204) State.reset = .next t ∧ t.pc ≠ State.reset.pc) :=
  ⟨exec_of_changes (f := (·.i)) (by decide), exec_of_changes (f := (·.stack)) (by decide),
   exec_of_changes (f := (·.dt)) (by decide), exec_of_changes (f := (·.st)) (by decide),
   exec_of_changes (f := (·.halted)) (by decide), exec_of_changes (f := (·.key)) (by decide),
   exec_of_changes (f := (·.mem)) (by decide), exec_of_changes (f := (·.fault)) (by decide),
   ⟨_, rfl, by simp [rand8, State.setReg, State.reset]⟩, exec_of_changes (f := (·.pc)) (by decide)⟩

theorem test_witness_StateChangesOnlyByItsWriters_disp : ∃ t, exec .cls (setPixel 63 31 true State.reset).1 = .next t ∧
    t.disp ≠ (setPixel 63 31 true State.reset).1.disp := by
  obtain ⟨t, h, hp⟩ := exec_of_changes (i := .cls) (s := (setPixel 63 31 true State.reset).1) (f := (·.getPixel 63 31)) (by decide)
  exact ⟨t, h, fun e => hp (by unfold State.getPixel; rw [e])⟩

theorem test_witness_SoundTimerIsUnobservable : step (start 0xF318) = .next (after (start 0xF318)) ∧
    step faulted = .fault (.stackUnderflow 0x200) := ⟨step_after (by decide), rfl⟩

theorem test_witness_SelfJumpIsFixedPoint : (start 0x1200).fault = none ∧ (start 0x1200).halted = false ∧
    (start 0x1200).pc.toNat = (0x200 : Addr12).toNat ∧ (start 0x1200).pc.toNat + 1 < 4096 ∧
    (start 0x1200).wordAt (start 0x1200).pc = encode (.jp 0x200) := by decide

theorem test_witness_MemoryAccessBoundsCheck : 4096 ≤ 4096 ∧ 4095 < 4096 ∧ State.reset.mem.wf = true ∧ 4094 ≠ 4095 := by decide

theorem test_witness_ReadsReturnTheLastWrite : State.reset.mem.wf = true ∧ 4095 < 4096 ∧
    memWrite none 0x200 5 State.reset = .ok () { State.reset with mem := State.reset.mem.write 0x200 5 } ∧
    0x200 = ({ State.reset with mem := State.reset.mem.write 0x200 5 } : State).pc.toNat ∧ 0x200 + 1 < 4096 :=
  ⟨rfl, by decide, rfl, rfl, by decide⟩

end Sys2Proof.Tests
end

namespace Sys2Proof.Machine

/-! ## The state after RESET (spec/10_state.md R48, spec/20_memory.md R66) -/

/-- Inside the font image, an address that memory does not list reads as its font byte. -/
theorem Memory.unlisted_font {a : Nat} (h : a < Config.font.length) : Memory.unlisted a = Config.font[a] := by
  simp [Memory.unlisted, Config.fontBase, h]

/-- Above the font image, an address that memory does not list reads as zero. -/
theorem Memory.unlisted_above_font {a : Nat} (h : Config.font.length ≤ a) : Memory.unlisted a = 0 := by
  simp [Memory.unlisted, Config.fontBase, h]

/-- Settles O46: the registers, the display and the keys are replicated zeros, and memory lists nothing, so that every
address reads as its reset contents. -/
theorem resetStateValues : Obligations.ResetStateValues := by
  refine ⟨rfl, fun r => ?_, rfl, rfl, rfl, rfl, rfl, rfl, rfl, fun x y => ?_, fun k => ?_, fun a h => ?_, rfl, fun a h => ?_⟩
  · simp [State.reset, State.reg]
  · simp [State.reset]
  · simp [State.reset]
  · exact Memory.unlisted_font h
  · exact Memory.unlisted_above_font h

/-! ## The writers of each piece of state (spec/10_state.md R45)

Per field, the instructions that write it are named one by one; for every other one the frame `Changes` gives the field of
the state before. -/

section Writers

variable {i : Instr} {s t : State}

theorem Changes.i_writer (hc : Changes i s t) (hne : t.i ≠ s.i) :
    (∃ a, i = .ldI a) ∨ ∃ x, i = .addIVx x ∨ i = .ldFVx x ∨ i = .ldMemVx x ∨ i = .ldVxMem x := by
  cases i
  case ldI a => exact .inl ⟨a, rfl⟩
  case addIVx x => exact .inr ⟨x, .inl rfl⟩
  case ldFVx x => exact .inr ⟨x, .inr (.inl rfl)⟩
  case ldMemVx x => exact .inr ⟨x, .inr (.inr (.inl rfl))⟩
  case ldVxMem x => exact .inr ⟨x, .inr (.inr (.inr rfl))⟩
  all_goals exact absurd (congrArg State.i hc) hne

theorem Changes.stack_writer (hc : Changes i s t) (hne : t.stack ≠ s.stack) : i = .ret ∨ ∃ a, i = .call a := by
  cases i
  case ret => exact .inl rfl
  case call a => exact .inr ⟨a, rfl⟩
  all_goals exact absurd (congrArg State.stack hc) hne

theorem Changes.dt_writer (hc : Changes i s t) (hne : t.dt ≠ s.dt) : ∃ x, i = .ldDTVx x := by
  cases i
  case ldDTVx x => exact ⟨x, rfl⟩
  all_goals exact absurd (congrArg State.dt hc) hne

theorem Changes.st_writer (hc : Changes i s t) (hne : t.st ≠ s.st) : ∃ x, i = .ldSTVx x := by
  cases i
  case ldSTVx x => exact ⟨x, rfl⟩
  all_goals exact absurd (congrArg State.st hc) hne

theorem Changes.halted_writer (hc : Changes i s t) (hne : t.halted ≠ s.halted) : ∃ x, i = .ldVxK x := by
  cases i
  case ldVxK x => exact ⟨x, rfl⟩
  all_goals exact absurd (congrArg State.halted hc) hne

theorem Changes.key_writer (hc : Changes i s t) (hne : t.key ≠ s.key) : ∃ x, i = .ldVxK x := by
  cases i
  case ldVxK x => exact ⟨x, rfl⟩
  all_goals exact absurd (congrArg State.key hc) hne

theorem Changes.disp_writer (hc : Changes i s t) (hne : t.disp ≠ s.disp) : i = .cls ∨ ∃ x y n, i = .drw x y n := by
  cases i
  case cls => exact .inl rfl
  case drw x y n => exact .inr ⟨x, y, n, rfl⟩
  all_goals exact absurd (congrArg State.disp hc) hne

theorem Changes.mem_writer (hc : Changes i s t) (hne : t.mem ≠ s.mem) : ∃ x, i = .ldBVx x ∨ i = .ldMemVx x := by
  cases i
  case ldBVx x => exact ⟨x, .inl rfl⟩
  case ldMemVx x => exact ⟨x, .inr rfl⟩
  all_goals exact absurd (congrArg State.mem hc) hne

theorem Changes.fault_writer (hc : Changes i s t) (hne : t.fault ≠ s.fault) : i = .ret ∨ (∃ x y n, i = .drw x y n) ∨
    ∃ x, i = .skp x ∨ i = .sknp x ∨ i = .ldBVx x ∨ i = .ldMemVx x ∨ i = .ldVxMem x := by
  cases i
  case ret => exact .inl rfl
  case drw x y n => exact .inr (.inl ⟨x, y, n, rfl⟩)
  case skp x => exact .inr (.inr ⟨x, .inl rfl⟩)
  case sknp x => exact .inr (.inr ⟨x, .inr (.inl rfl)⟩)
  case ldBVx x => exact .inr (.inr ⟨x, .inr (.inr (.inl rfl))⟩)
  case ldMemVx x => exact .inr (.inr ⟨x, .inr (.inr (.inr (.inl rfl)))⟩)
  case ldVxMem x => exact .inr (.inr ⟨x, .inr (.inr (.inr (.inr rfl)))⟩)
  all_goals exact absurd (congrArg State.fault hc) hne

theorem Changes.draws_writer (hc : Changes i s t) (hne : t.draws ≠ s.draws) : ∃ x nn, i = .rnd x nn := by
  cases i
  case rnd x nn => exact ⟨x, nn, rfl⟩
  all_goals exact absurd (congrArg State.draws hc) hne

theorem Changes.pc_writer (hc : Changes i s t) (hne : t.pc ≠ s.pc) :
    i = .ret ∨ (∃ a, i = .jp a ∨ i = .call a ∨ i = .jpV0 a) ∨ (∃ x nn, i = .seImm x nn ∨ i = .sneImm x nn) ∨
      (∃ x y, i = .seReg x y ∨ i = .sneReg x y) ∨ ∃ x, i = .skp x ∨ i = .sknp x := by
  cases i
  case ret => exact .inl rfl
  case jp a => exact .inr (.inl ⟨a, .inl rfl⟩)
  case call a => exact .inr (.inl ⟨a, .inr (.inl rfl)⟩)
  case jpV0 a => exact .inr (.inl ⟨a, .inr (.inr rfl)⟩)
  case seImm x nn => exact .inr (.inr (.inl ⟨x, nn, .inl rfl⟩))
  case sneImm x nn => exact .inr (.inr (.inl ⟨x, nn, .inr rfl⟩))
  case seReg x y => exact .inr (.inr (.inr (.inl ⟨x, y, .inl rfl⟩)))
  case sneReg x y => exact .inr (.inr (.inr (.inl ⟨x, y, .inr rfl⟩)))
  case skp x => exact .inr (.inr (.inr (.inr ⟨x, .inl rfl⟩)))
  case sknp x => exact .inr (.inr (.inr (.inr ⟨x, .inr rfl⟩)))
  all_goals exact absurd (congrArg State.pc hc) hne

end Writers

/-- Settles O54: the frame of each instruction (`exec_changes`) leaves a field as it was unless the instruction is one of
its writers. -/
theorem stateChangesOnlyByItsWriters : Obligations.StateChangesOnlyByItsWriters := by
  intro i s t h
  have hc := exec_changes h
  exact ⟨hc.i_writer, hc.stack_writer, hc.dt_writer, hc.st_writer, hc.halted_writer, hc.key_writer, hc.disp_writer,
    hc.mem_writer, hc.fault_writer, hc.draws_writer, hc.pc_writer⟩

/-! ## The general registers (spec/10_state.md R31, R32) -/

theorem reg_congr {s t : State} (h : t.v = s.v) (r : Reg) : t.reg r = s.reg r := by
  rw [State.reg, State.reg, h]

/-- A register that one write changed is the register written. -/
theorem eq_of_reg_setReg_ne {s : State} {x r : Reg} {b : Byte} (h : (s.setReg x b).reg r ≠ s.reg r) : r = x :=
  by_contra fun hr => h (reg_setReg_ne s b hr)

/-- A register that a write of result and flag changed is the result's register or VF. -/
theorem eq_or_eq_VF_of_reg_writeResultAndFlag_ne {s : State} {x r : Reg} {b : Byte} {f : Bool}
    (h : (writeResultAndFlag x b f s).reg r ≠ s.reg r) : r = x ∨ r = VF := by
  obtain ⟨-, -, -, hother⟩ := writesRegAndFlag_writeResultAndFlag x (f := f) (p := f = true) s (rfl : b = b) Iff.rfl
  by_contra hr
  obtain ⟨hx, hvf⟩ := not_or.1 hr
  exact h (hother r hx hvf)

/-- However FX65 ends, the registers above V[X] are as before. -/
theorem exec_ldVxMem_reg_of_lt {x r : Reg} {s t : State} (h : exec (.ldVxMem x) s = .next t) (hr : x < r) :
    t.reg r = s.reg r := by
  change execLdVxMem x s = _ at h
  have hout : r ∉ regsUpTo x := fun hm => Nat.not_le.2 hr (mem_regsUpTo.1 hm)
  by_cases hin : s.dataAddr + (regsUpTo x).length ≤ Config.memSize
  · obtain ⟨u, hu, -, -, hkeep⟩ := loadRegs_inside (ia := some s.instrAddr) (nodup_regsUpTo x) hin
    rw [execLdVxMem, hu] at h
    cases next_injective h
    exact hkeep r hout
  · have hne : regsUpTo x ≠ [] := List.ne_nil_of_length_pos (by rw [length_regsUpTo]; exact Nat.succ_pos _)
    obtain ⟨u, hu, -, -, -, hkeep⟩ :=
      loadRegs_outside (ia := some s.instrAddr) (s := s) (nodup_regsUpTo x) hne (Nat.not_le.1 hin)
    rw [execLdVxMem, hu] at h
    cases next_injective h
    exact hkeep r hout

/-- However DXYN ends, the registers but VF are as before. -/
theorem exec_drw_reg_of_ne {x y r : Reg} {n : Nibble} {s t : State} (h : exec (.drw x y n) s = .next t) (hr : r ≠ VF) :
    t.reg r = s.reg r := by
  change execDrw x y n s = _ at h
  obtain ⟨u, hf, ⟨c, hu⟩ | ⟨e, hu⟩⟩ := drawRows_frame (ia := some s.instrAddr) (vx := s.reg x) (n := n.toNat)
    (addr := s.dataAddr) (y := s.reg y) (c := false) (s := s) (by have := n.isLt; omega)
  all_goals
    rw [execDrw, hu] at h
    cases next_injective h
  · rw [reg_setReg_ne _ _ hr, hf]; rfl
  · rw [hf]; rfl

/-- However FX0A ends, the registers but V[X] are as before. -/
theorem exec_ldVxK_reg_of_ne {x r : Reg} {s t : State} (h : exec (.ldVxK x) s = .next t) (hr : r ≠ x) :
    t.reg r = s.reg r := by
  cases hl : s.lowestPressed with
  | none =>
    rw [exec_ldVxK_none (lowestPressed_eq_none.1 hl)] at h
    cases next_injective h; rfl
  | some k =>
    obtain ⟨hk, hlow⟩ := lowestPressed_eq_some.1 hl
    rw [exec_ldVxK_some hk hlow] at h
    cases next_injective h; exact reg_setReg_ne _ _ hr

/-- Settles O53: an instruction writes one register, a result and VF, V0 to VX, VF alone, or leaves the whole register file
as it was (its frame in `Changes`). -/
theorem onlyListedRegistersChange : Obligations.OnlyListedRegistersChange := by
  intro i s t r h hne
  have hc := exec_changes h
  cases i
  case ldImm | addImm | ldReg | orReg | andReg | xorReg | ldVxDT =>
    cases next_injective h; exact eq_of_reg_setReg_ne hne
  case rnd x nn =>
    cases next_injective h; exact eq_of_reg_setReg_ne (s := (rand8 s).2) hne
  case addReg | sub | shr | subn | shl =>
    cases next_injective h; exact eq_or_eq_VF_of_reg_writeResultAndFlag_ne hne
  case ldVxK x => exact by_contra fun hr => hne (exec_ldVxK_reg_of_ne h hr)
  case drw x y n => exact by_contra fun hr => hne (exec_drw_reg_of_ne h hr)
  case ldVxMem x => exact Nat.not_lt.1 fun hr => hne (exec_ldVxMem_reg_of_lt h hr)
  all_goals exact absurd (reg_congr (congrArg State.v hc) r) hne

/-! ## The sound timer (spec/10_state.md R38) -/

theorem pop_withSt (b : Byte) (s : State) : pop { s with st := b } = Res.withSt b (pop s) := by
  cases hs : s.stack.getLast? <;> simp only [pop, hs] <;> rfl

theorem skipIf_withSt (b : Byte) (c : Bool) (s : State) : skipIf c { s with st := b } = { skipIf c s with st := b } := by
  cases c <;> rfl

/-- Executing the instruction with another value in ST ends in the state it ends in without, up to the value of ST. -/
def IgnoresSt (i : Instr) (s : State) (b : Byte) : Prop :=
  ∃ t c, exec i s = .next t ∧ exec i { s with st := b } = .next { t with st := c }

/-- An instruction whose operation commutes with giving ST another value does not read ST. -/
theorem ignoresSt_of_outcome {i : Instr} {s : State} {b : Byte} {r r' : Res Unit} (h : exec i s = r.outcome)
    (h' : exec i { s with st := b } = r'.outcome) (hr : r' = Res.withSt b r) : IgnoresSt i s b := by
  subst hr
  cases r with
  | ok _ t => exact ⟨t, b, h, h'⟩
  | raised t => exact ⟨t, b, h, h'⟩

theorem ignoresSt_of_skipIf {i : Instr} {s : State} {b : Byte} {c : Bool} (h : exec i s = .next (skipIf c s))
    (h' : exec i { s with st := b } = .next (skipIf c { s with st := b })) : IgnoresSt i s b :=
  ⟨_, b, h, by rw [h', skipIf_withSt]⟩

theorem ignoresSt_ldVxK (x : Reg) (s : State) (b : Byte) : IgnoresSt (.ldVxK x) s b := by
  cases hl : s.lowestPressed with
  | none =>
    have hk := lowestPressed_eq_none.1 hl
    exact ⟨_, b, exec_ldVxK_none hk, exec_ldVxK_none hk⟩
  | some k =>
    obtain ⟨hk, hlow⟩ := lowestPressed_eq_some.1 hl
    exact ⟨_, b, exec_ldVxK_some hk hlow, exec_ldVxK_some hk hlow⟩

/-- No instruction reads ST: FX18 overwrites it, and every other one leaves it alone (R38). -/
theorem ignoresSt (i : Instr) (s : State) (b : Byte) : IgnoresSt i s b := by
  cases i
  case ret =>
    refine ignoresSt_of_outcome rfl rfl ?_
    rw [pop_withSt]; exact Res.bind_withSt b _ _ fun _ _ => rfl
  case seImm | sneImm | seReg | sneReg => exact ignoresSt_of_skipIf rfl rfl
  case skp | sknp =>
    refine ignoresSt_of_outcome rfl rfl ?_
    rw [keyOperand_withSt]
    exact Res.bind_withSt b _ _ fun _ t => congrArg (Res.ok ()) (skipIf_withSt b _ t)
  case drw x y n =>
    refine ignoresSt_of_outcome rfl rfl ?_
    rw [drawRows_withSt]; exact Res.bind_withSt b _ _ fun _ _ => rfl
  case ldVxK x => exact ignoresSt_ldVxK x s b
  case ldBVx x => exact ignoresSt_of_outcome rfl rfl (storeBytes_withSt b _ _ _ _)
  case ldMemVx x =>
    refine ignoresSt_of_outcome rfl rfl ?_
    rw [storeBytes_withSt]; exact Res.bind_withSt b _ _ fun _ _ => rfl
  case ldVxMem x =>
    refine ignoresSt_of_outcome rfl rfl ?_
    rw [loadRegs_withSt]; exact Res.bind_withSt b _ _ fun _ _ => rfl
  case ldSTVx x => exact ⟨_, s.reg x, rfl, rfl⟩
  all_goals exact ⟨_, b, rfl, rfl⟩

theorem fetch_rewind_withSt (b : Byte) (s : State) :
    fetch (rewind { s with st := b }) = Res.withSt b (fetch (rewind s)) := by
  rw [← fetch_withSt, rewind_eq, rewind_eq]; rfl

section Step

variable {s t : State} {w : Word}

theorem step_of_fault {f : Fault} (hf : s.fault = some f) : step s = .fault f := by
  simp only [step, hf]

theorem step_of_fetch_raised (hf : s.fault = none) (h : fetch (rewind s) = .raised t) : step s = .next t := by
  simp only [step, hf, h]

theorem step_of_illegal {r : Reject} (hf : s.fault = none) (h : fetch (rewind s) = .ok w t)
    (hd : decodeWord w = .error r) : step s = .next (raiseDecodeError w t) := by
  simp only [step, hf, h, hd]

theorem step_of_decoded {i : Instr} (hf : s.fault = none) (h : fetch (rewind s) = .ok w t)
    (hd : decodeWord w = .ok i) : step s = exec i t := by
  simp only [step, hf, h, hd]

end Step

/-- A STEP of a core that is not faulted answers a next state, and with another value in ST the same state up to ST. -/
theorem step_withSt {s : State} (b : Byte) (hf : s.fault = none) :
    ∃ t c, step s = .next t ∧ step { s with st := b } = .next { t with st := c } := by
  have hst := fetch_rewind_withSt b s
  cases h : fetch (rewind s) with
  | raised t =>
    rw [h] at hst
    exact ⟨t, b, step_of_fetch_raised hf h, step_of_fetch_raised hf hst⟩
  | ok w t =>
    rw [h] at hst
    cases hd : decodeWord w with
    | error r => exact ⟨_, b, step_of_illegal hf h hd, step_of_illegal (s := { s with st := b }) hf hst hd⟩
    | ok i =>
      rw [step_of_decoded hf h hd, step_of_decoded (s := { s with st := b }) hf hst hd]
      exact ignoresSt i t b

/-- Settles O55: a faulted core answers its record whatever ST holds, and a STEP of any other core takes the same step with
another value in ST. -/
theorem soundTimerIsUnobservable : Obligations.SoundTimerIsUnobservable := by
  intro s b
  rcases Option.eq_none_or_eq_some s.fault with hf | ⟨e, hf⟩
  · obtain ⟨u, c, hs, hs'⟩ := step_withSt b hf
    refine ⟨fun t h => ?_, fun f h => ?_⟩
    · cases next_injective (hs.symm.trans h)
      exact ⟨c, hs'⟩
    · cases hs.symm.trans h
  · have hs := step_of_fault hf
    refine ⟨fun t h => ?_, fun f h => ?_⟩
    · cases hs.symm.trans h
    · cases hs.symm.trans h
      exact step_of_fault hf

end Sys2Proof.Machine

namespace Sys2Proof.Machine

/-! ## Byte accesses (spec/20_memory.md R61, R70, R72) -/

/-- A byte write completes exactly inside memory, and then it stores the byte and changes nothing else. -/
theorem memWrite_eq_ok_iff {ia : Option Word} {a : Nat} {b : Byte} {s t : State} :
    memWrite ia a b s = .ok () t ↔ a < Config.memSize ∧ t = { s with mem := s.mem.write a b } := by
  rcases Nat.lt_or_ge a Config.memSize with ha | ha
  · rw [memWrite_inside ha]
    constructor
    · intro h
      cases h
      exact ⟨ha, rfl⟩
    · rintro ⟨-, rfl⟩
      rfl
  · rw [memWrite_outside ha]
    constructor
    · intro h
      cases h
    · exact fun h => absurd h.1 (Nat.not_lt.2 ha)

@[simp] theorem highByte_wordOfBytes (hi lo : Byte) : highByte (wordOfBytes hi lo) = hi :=
  BitVec.extractLsb'_append_eq_left

/-- A fetch inside memory answers a word whose high byte is the byte at pc (R64, R102). -/
theorem fetch_highByte {s : State} (h : s.pc.toNat + 1 < Config.memSize) :
    ∃ w u, fetch s = .ok w u ∧ highByte w = s.mem.read s.pc.toNat :=
  ⟨_, _, fetch_inside h, highByte_wordOfBytes _ _⟩

/-- Settles O57: the bounds check splits at the size of memory, and a write is read back where it was made and nowhere
else. -/
theorem memoryAccessBoundsCheck : Obligations.MemoryAccessBoundsCheck := by
  intro ia a b s
  refine ⟨fun ha => ⟨memRead_outside ha, memWrite_outside ha⟩, fun ha => ⟨memRead_inside ha, _, memWrite_inside ha, rfl, ?_, ?_⟩⟩
  · exact fun hw => Memory.read_write_self hw a b
  · exact fun c hc => Memory.read_write_ne s.mem b hc

/-- Settles O58: a store that completes lies inside memory (`memWrite_eq_ok_iff`), so the law of a read after a write gives
every later read, the first byte of a fetch among them. -/
theorem readsReturnTheLastWrite : Obligations.ReadsReturnTheLastWrite := by
  intro ia ja a c b s t hw hc h
  obtain ⟨ha, ht⟩ := memWrite_eq_ok_iff.1 h
  have hmem : t.mem = s.mem.write a b := by rw [ht]
  refine ⟨?_, ?_, ?_⟩
  · rw [hmem]
    exact Memory.write_wf b hw ha
  · rw [memRead_inside hc, hmem, Memory.read_write hw]
  · rintro rfl hin
    obtain ⟨w, u, hf, hb⟩ := fetch_highByte hin
    exact ⟨w, u, hf, hb.trans (by rw [hmem, Memory.read_write_self hw])⟩

/-! ## The program load (spec/20_memory.md R74) -/

/-- RESET in closed form: the part of the program that fits is stored from 0x200, and a longer one leaves the fault of the
first byte outside memory. -/
theorem resetWith_eq (p : List Byte) (s : State) :
    resetWith p s = { State.reset with
      draws := s.draws
      mem := State.reset.mem.writeList 0x200 (p.take 3584)
      fault := if p.length ≤ 3584 then none else some (.memoryOutOfBounds 0x1000 .write none) } := by
  rw [resetWith]
  split
  · next h => rw [loadProgram_fits h, List.take_of_length_le h]; rfl
  · next h => rw [loadProgram_over (Nat.not_le.1 h)]

theorem resetWith_mem (p : List Byte) (s : State) :
    (resetWith p s).mem = State.reset.mem.writeList 0x200 (p.take 3584) := by
  rw [resetWith_eq]

theorem resetWith_fault_of_fits {p : List Byte} (s : State) (h : p.length ≤ 3584) : (resetWith p s).fault = none := by
  rw [resetWith_eq]; exact if_pos h

theorem resetWith_fault_of_over {p : List Byte} (s : State) (h : 3584 < p.length) :
    (resetWith p s).fault = some (.memoryOutOfBounds 0x1000 .write none) := by
  rw [resetWith_eq]; exact if_neg (Nat.not_le.2 h)

/-- Byte k of the program reads at 0x200 + k, wherever that is inside memory. -/
theorem read_resetWith_program {p : List Byte} (s : State) {k : Nat} (h : k < p.length) (hin : 0x200 + k < 4096) :
    (resetWith p s).mem.read (0x200 + k) = p[k] := by
  have hlen : (p.take 3584).length = min 3584 p.length := List.length_take
  rw [resetWith_mem, Memory.read_writeList reset_mem_wf (by simp only [Config.memSize]; omega) (by omega), List.getElem_take]

/-- Outside the bytes of the program, memory reads as after RESET with the empty program. -/
theorem read_resetWith_elsewhere {p : List Byte} (s : State) {a : Nat}
    (h : a < 0x200 ∨ 0x200 + p.length ≤ a ∨ 4096 ≤ a) : (resetWith p s).mem.read a = State.reset.mem.read a := by
  have hlen : (p.take 3584).length = min 3584 p.length := List.length_take
  rw [resetWith_mem, Memory.read_writeList_ne (by omega)]

theorem response_of_fault_none {s : State} (h : s.fault = none) : s.response = .ok := by
  simp only [State.response, h]

theorem response_of_fault {s : State} {f : Fault} (h : s.fault = some f) : s.response = .fault f := by
  simp only [State.response, h]

@[simp] theorem tick_mem (s : State) : (tick s).mem = s.mem := by
  unfold tick tickWith; split <;> rfl

@[simp] theorem keyEvent_mem (k : Key) (down : Bool) (s : State) : (keyEvent k down s).mem = s.mem := by
  unfold keyEvent; split <;> rfl

/-- Of the host's operations, only STEP and RESET reach memory. -/
theorem operate_mem {o : HostOp} (s : State) (hstep : o ≠ .step) (hreset : ∀ q, o ≠ .reset q) :
    (operate o s).1.mem = s.mem := by
  cases o with
  | reset q => exact absurd rfl (hreset q)
  | step => exact absurd rfl hstep
  | tick => exact tick_mem s
  | keyDown k => exact keyEvent_mem k true s
  | keyUp k => exact keyEvent_mem k false s
  | readPixel x y => rfl
  | readStatus => rfl

/-- Settles O47: the closed form of RESET (`resetWith_eq`) gives what memory reads as and the fault; a faulted core answers
its record to every STEP. -/
theorem programLoadWritesBytes : Obligations.ProgramLoadWritesBytes := by
  intro p s
  refine ⟨resetWith p s, rfl, ?_, fun k => read_resetWith_program s, fun a => read_resetWith_elsewhere s,
    fun hfits => ?_, fun hover => ?_, fun o => operate_mem s⟩
  · rw [resetWith_eq]
  · have hf := resetWith_fault_of_fits s hfits
    exact ⟨hf, response_of_fault_none hf⟩
  · have hf := resetWith_fault_of_over s hover
    exact ⟨hf, response_of_fault hf, step_of_fault hf⟩

end Sys2Proof.Machine

namespace Sys2Proof.Laws.TableRow

/-- Every instruction has its row: the encoder's word fits the row of its mnemonic. -/
theorem statement : ∀ i : Instr, Statement i
  | .cls => cls
  | .ret => ret
  | .jp nnn => jp nnn
  | .call nnn => call nnn
  | .seImm x nn => seImm x nn
  | .sneImm x nn => sneImm x nn
  | .seReg x y => seReg x y
  | .ldImm x nn => ldImm x nn
  | .addImm x nn => addImm x nn
  | .ldReg x y => ldReg x y
  | .orReg x y => orReg x y
  | .andReg x y => andReg x y
  | .xorReg x y => xorReg x y
  | .addReg x y => addReg x y
  | .sub x y => sub x y
  | .shr x y => shr x y
  | .subn x y => subn x y
  | .shl x y => shl x y
  | .sneReg x y => sneReg x y
  | .ldI nnn => ldI nnn
  | .jpV0 nnn => jpV0 nnn
  | .rnd x nn => rnd x nn
  | .drw x y n => drw x y n
  | .skp x => skp x
  | .sknp x => sknp x
  | .ldVxDT x => ldVxDT x
  | .ldVxK x => ldVxK x
  | .ldDTVx x => ldDTVx x
  | .ldSTVx x => ldSTVx x
  | .addIVx x => addIVx x
  | .ldFVx x => ldFVx x
  | .ldBVx x => ldBVx x
  | .ldMemVx x => ldMemVx x
  | .ldVxMem x => ldVxMem x

end Sys2Proof.Laws.TableRow

namespace Sys2Proof

/-! ## Decoding an encoded instruction (spec/30_encoding.md R83, R85, R86) -/

theorem legalWord_iff {w : Word} : legalWord w = true ↔ ∃ r ∈ opcodeTable, r.fits w = true := List.any_eq_true

/-- Every term is a legal instruction (R87, R90). -/
theorem wellFormed_of_instr (i : Instr) : i.wellFormed = true := by
  obtain ⟨r, hr, -, hfits⟩ := Laws.TableRow.statement i
  exact legalWord_iff.2 ⟨r, hr, hfits⟩

/-- The family field of the encoder's word selects the part of the decoder, the sub-opcode field the instruction, and every
operand field reads back. -/
theorem decodeWord_encode (i : Instr) : decodeWord (encode i) = .ok i := by
  cases i
  case cls | ret => rfl
  case ldReg | orReg | andReg | xorReg | addReg | sub | shr | subn | shl => simp [encode, decodeWord, decode8]
  case skp | sknp => simp [encode, decodeWord, decodeE]
  case ldVxDT | ldVxK | ldDTVx | ldSTVx | addIVx | ldFVx | ldBVx | ldMemVx | ldVxMem => simp [encode, decodeWord, decodeF]
  all_goals simp [encode, decodeWord]

/-- The two bytes of a legal word decode as the word, with nothing left over (R64, R81). -/
theorem decode_bytesOfWord {w : Word} {i : Instr} (h : decodeWord w = .ok i) : decode (bytesOfWord w) = .ok (i, []) := by
  rw [bytesOfWord, decode, wordOfBytes_bytes, h]; rfl

/-- Settles O8: every instruction has its row in the table, its word decodes to it (`decodeWord_encode`), and the bytes of a
word decode as the word. -/
theorem decodeEncodeRoundTrip : Obligations.DecodeEncodeRoundTrip :=
  fun i => ⟨wellFormed_of_instr i, decodeWord_encode i, decode_bytesOfWord (decodeWord_encode i)⟩

/-- Settles O12: each word is the encoder's word of its instruction. -/
theorem sampleWordsDecode : Obligations.SampleWordsDecode :=
  ⟨decodeWord_encode .cls, decodeWord_encode (.jp 0x234), decodeWord_encode (.ldImm 0xA 0x7F), decodeWord_encode (.shr 1 2),
    decodeWord_encode (.drw 0 1 5), decodeWord_encode (.skp 1), decodeWord_encode (.ldVxK 3), decodeWord_encode (.ldVxMem 2)⟩

/-- Settles O2: the fetched word is `wordOfBytes` of the bytes at pc and pc + 1. -/
theorem fetchIsBigEndian : Obligations.FetchIsBigEndian := fun _ h =>
  ⟨_, _, Machine.fetch_inside h, wordOfBytes_toNat _ _, Machine.highByte_wordOfBytes _ _, rfl⟩

/-! ## A word whose selecting fields are known is the format of its operand fields (R83, R90) -/

section Fields

variable {w : Word} {f : Nibble}

theorem fmtA12_of_family (hf : fieldF w = f) : fmtA12 f (fieldNNN w) = w := by
  rw [← hf]; exact fmtA12_fields w

theorem fmtRI8_of_family (hf : fieldF w = f) : fmtRI8 f (fieldX w) (fieldNN w) = w := by
  rw [← hf]; exact fmtRI8_fields w

theorem fmtRRN_of_family (hf : fieldF w = f) : fmtRRS f (fieldX w) (fieldY w) (fieldN w) = w := by
  rw [← hf]; exact fmtRRS_fields w

theorem fmtRRS_of_fields {n : Nibble} (h : fieldF w = f ∧ fieldN w = n) : fmtRRS f (fieldX w) (fieldY w) n = w := by
  rw [← h.2]; exact fmtRRN_of_family h.1

theorem fmtRS8_of_fields {ss : Byte} (h : fieldF w = f ∧ fieldNN w = ss) : fmtRS8 f (fieldX w) ss = w := by
  rw [← h.2]; exact fmtRI8_of_family h.1

end Fields

/-! ## Encoding a decoded word (R86, R90) -/

section EncodeDecode

variable {w : Word} {i : Instr}

theorem encode_of_decode0 (h : decode0 w = .ok i) : encode i = w := by
  unfold decode0 at h
  split at h
  · next hw => cases h; exact hw.symm
  · split at h
    · next hw => cases h; exact hw.symm
    · cases h

theorem encode_of_decode8 (hf : fieldF w = 0x8) (h : decode8 w = .ok i) : encode i = w := by
  unfold decode8 at h
  split at h <;> cases h
  all_goals next hn => exact fmtRRS_of_fields ⟨hf, BitVec.eq_of_toNat_eq hn⟩

theorem encode_of_decodeE (hf : fieldF w = 0xE) (h : decodeE w = .ok i) : encode i = w := by
  unfold decodeE at h
  split at h <;> cases h
  all_goals next hnn => exact fmtRS8_of_fields ⟨hf, BitVec.eq_of_toNat_eq hnn⟩

theorem encode_of_decodeF (hf : fieldF w = 0xF) (h : decodeF w = .ok i) : encode i = w := by
  unfold decodeF at h
  split at h <;> cases h
  all_goals next hnn => exact fmtRS8_of_fields ⟨hf, BitVec.eq_of_toNat_eq hnn⟩

theorem encode_of_guardN {j : Instr} {e : Reject} (h : (if fieldN w = 0 then .ok j else .error e) = Except.ok i)
    (hj : fieldN w = 0 → encode j = w) : encode i = w := by
  split at h
  · next hn => cases h; exact hj hn
  · cases h

/-- The last part of the decoder is for family F alone. -/
theorem fieldF_eq_F (h : ∀ k < 0xF, (fieldF w).toNat ≠ k) : fieldF w = 0xF := by
  have hlt := (fieldF w).isLt
  have hne := h (fieldF w).toNat
  apply BitVec.eq_of_toNat_eq
  show _ = 0xF
  omega

/-- A word that decodes has the format of its family, and the decoder keeps every field that the format leaves open. -/
theorem encode_of_decodeWord (h : decodeWord w = .ok i) : encode i = w := by
  unfold decodeWord at h
  split at h
  -- NNN: families 1, 2, A and B
  case h_2 hf | h_3 hf | h_11 hf | h_12 hf => cases h; exact fmtA12_of_family (BitVec.eq_of_toNat_eq hf)
  -- X and NN: families 3, 4, 6, 7 and C
  case h_4 hf | h_5 hf | h_7 hf | h_8 hf | h_13 hf => cases h; exact fmtRI8_of_family (BitVec.eq_of_toNat_eq hf)
  -- X, Y and N: family D
  case h_14 hf => cases h; exact fmtRRN_of_family (BitVec.eq_of_toNat_eq hf)
  -- X and Y, with N = 0: families 5 and 9
  case h_6 hf | h_10 hf => exact encode_of_guardN h fun hn => fmtRRS_of_fields ⟨BitVec.eq_of_toNat_eq hf, hn⟩
  case h_1 => exact encode_of_decode0 h
  case h_9 hf => exact encode_of_decode8 (BitVec.eq_of_toNat_eq hf) h
  case h_15 hf => exact encode_of_decodeE (BitVec.eq_of_toNat_eq hf) h
  case h_16 => exact encode_of_decodeF (fieldF_eq_F (by grind)) h

end EncodeDecode

/-- Settles O9: the decoder keeps every field that does not select the instruction (`encode_of_decodeWord`). -/
theorem encodeDecodeRoundTrip : Obligations.EncodeDecodeRoundTrip := fun _ _ => encode_of_decodeWord

/-! ## The rows of the table and the decoder (R87) -/

/-- A bit that two rows both fix is the word's bit in both patterns, so rows that are apart share no word. -/
theorem OpRow.not_fits_of_apart {r q : OpRow} {w : Word} (h : r.apart q = true) (hr : r.fits w = true) : q.fits w = false := by
  rw [Bool.eq_false_iff]
  intro hq
  simp only [OpRow.fits, beq_iff_eq] at hr hq
  simp only [OpRow.apart, bne_iff_ne, ← hr, ← hq] at h
  apply h
  ext b
  simp only [BitVec.getElem_and, BitVec.getElem_xor]
  cases r.mask[b] <;> cases q.mask[b] <;> simp

theorem opcodeTable_apart : ∀ r ∈ opcodeTable, ∀ q ∈ opcodeTable, r = q ∨ r.apart q = true := by decide

/-- A word fits at most one row. -/
theorem eq_of_fits {w : Word} {r q : OpRow} (hr : r ∈ opcodeTable) (hq : q ∈ opcodeTable) (hrw : r.fits w = true)
    (hqw : q.fits w = true) : r = q := by
  rcases opcodeTable_apart r hr q hq with h | h
  · exact h
  · exact absurd hqw (Bool.eq_false_iff.1 (OpRow.not_fits_of_apart h hrw))

section Fits

variable {m : String} {w : Word} {f : Nibble}

theorem fits_iff {k p : Word} : (OpRow.mk m k p).fits w = true ↔ w &&& k = p := beq_iff_eq

/-- Only words of its family fit a row that fixes F. -/
theorem fieldF_of_fits (h : (OpRow.mk m 0xF000 (fmtA12 f 0)).fits w = true) : fieldF w = f := by
  have hw := fits_fmtA12 m (fieldF w) (fieldNNN w)
  rw [fmtA12_fields] at hw
  have hp := (fits_iff.1 hw).symm.trans (fits_iff.1 h)
  simpa using congrArg fieldF hp

/-- Only words of its family and sub-opcode fit a row that fixes F and N. -/
theorem fieldF_fieldN_of_fits {n : Nibble} (h : (OpRow.mk m 0xF00F (fmtRRS f 0 0 n)).fits w = true) :
    fieldF w = f ∧ fieldN w = n := by
  have hw := fits_fmtRRS m (fieldF w) (fieldX w) (fieldY w) (fieldN w)
  rw [fmtRRS_fields] at hw
  have hp := (fits_iff.1 hw).symm.trans (fits_iff.1 h)
  exact ⟨by simpa using congrArg fieldF hp, by simpa using congrArg fieldN hp⟩

/-- Only words of its family and sub-opcode fit a row that fixes F and NN. -/
theorem fieldF_fieldNN_of_fits {ss : Byte} (h : (OpRow.mk m 0xF0FF (fmtRS8 f 0 ss)).fits w = true) :
    fieldF w = f ∧ fieldNN w = ss := by
  have hw := fits_fmtRS8 m (fieldF w) (fieldX w) (fieldNN w)
  rw [fmtRS8_fields] at hw
  have hp := (fits_iff.1 hw).symm.trans (fits_iff.1 h)
  exact ⟨by simpa using congrArg fieldF hp, by simpa using congrArg fieldNN hp⟩

/-- Only its own pattern fits a row that fixes every bit. -/
theorem eq_of_fits_all {p : Word} (h : (OpRow.mk m 0xFFFF p).fits w = true) : p = w :=
  (fits_iff.1 h).symm.trans BitVec.and_allOnes

theorem fmtA12_of_fits (h : (OpRow.mk m 0xF000 (fmtA12 f 0)).fits w = true) : fmtA12 f (fieldNNN w) = w :=
  fmtA12_of_family (fieldF_of_fits h)

theorem fmtRI8_of_fits (h : (OpRow.mk m 0xF000 (fmtA12 f 0)).fits w = true) : fmtRI8 f (fieldX w) (fieldNN w) = w :=
  fmtRI8_of_family (fieldF_of_fits h)

theorem fmtRRN_of_fits (h : (OpRow.mk m 0xF000 (fmtA12 f 0)).fits w = true) :
    fmtRRS f (fieldX w) (fieldY w) (fieldN w) = w :=
  fmtRRN_of_family (fieldF_of_fits h)

theorem fmtRRS_of_fits {n : Nibble} (h : (OpRow.mk m 0xF00F (fmtRRS f 0 0 n)).fits w = true) :
    fmtRRS f (fieldX w) (fieldY w) n = w :=
  fmtRRS_of_fields (fieldF_fieldN_of_fits h)

theorem fmtRS8_of_fits {ss : Byte} (h : (OpRow.mk m 0xF0FF (fmtRS8 f 0 ss)).fits w = true) : fmtRS8 f (fieldX w) ss = w :=
  fmtRS8_of_fields (fieldF_fieldNN_of_fits h)

end Fits

/-- A word that fits a row is the word of the row's instruction with the operands of its fields, row by row in the order of
the table. -/
theorem exists_encode_of_fits {w : Word} : ∀ r ∈ opcodeTable, r.fits w = true → ∃ i, encode i = w := by
  simp only [opcodeTable, List.cons_append, List.nil_append, List.forall_mem_cons]
  exact ⟨
    fun h => ⟨.cls, eq_of_fits_all h⟩,
    fun h => ⟨.ret, eq_of_fits_all h⟩,
    fun h => ⟨.jp (fieldNNN w), fmtA12_of_fits h⟩,
    fun h => ⟨.call (fieldNNN w), fmtA12_of_fits h⟩,
    fun h => ⟨.seImm (fieldX w) (fieldNN w), fmtRI8_of_fits h⟩,
    fun h => ⟨.sneImm (fieldX w) (fieldNN w), fmtRI8_of_fits h⟩,
    fun h => ⟨.seReg (fieldX w) (fieldY w), fmtRRS_of_fits h⟩,
    fun h => ⟨.ldImm (fieldX w) (fieldNN w), fmtRI8_of_fits h⟩,
    fun h => ⟨.addImm (fieldX w) (fieldNN w), fmtRI8_of_fits h⟩,
    fun h => ⟨.ldReg (fieldX w) (fieldY w), fmtRRS_of_fits h⟩,
    fun h => ⟨.orReg (fieldX w) (fieldY w), fmtRRS_of_fits h⟩,
    fun h => ⟨.andReg (fieldX w) (fieldY w), fmtRRS_of_fits h⟩,
    fun h => ⟨.xorReg (fieldX w) (fieldY w), fmtRRS_of_fits h⟩,
    fun h => ⟨.addReg (fieldX w) (fieldY w), fmtRRS_of_fits h⟩,
    fun h => ⟨.sub (fieldX w) (fieldY w), fmtRRS_of_fits h⟩,
    fun h => ⟨.shr (fieldX w) (fieldY w), fmtRRS_of_fits h⟩,
    fun h => ⟨.subn (fieldX w) (fieldY w), fmtRRS_of_fits h⟩,
    fun h => ⟨.shl (fieldX w) (fieldY w), fmtRRS_of_fits h⟩,
    fun h => ⟨.sneReg (fieldX w) (fieldY w), fmtRRS_of_fits h⟩,
    fun h => ⟨.ldI (fieldNNN w), fmtA12_of_fits h⟩,
    fun h => ⟨.jpV0 (fieldNNN w), fmtA12_of_fits h⟩,
    fun h => ⟨.rnd (fieldX w) (fieldNN w), fmtRI8_of_fits h⟩,
    fun h => ⟨.drw (fieldX w) (fieldY w) (fieldN w), fmtRRN_of_fits h⟩,
    fun h => ⟨.skp (fieldX w), fmtRS8_of_fits h⟩,
    fun h => ⟨.sknp (fieldX w), fmtRS8_of_fits h⟩,
    fun h => ⟨.ldVxDT (fieldX w), fmtRS8_of_fits h⟩,
    fun h => ⟨.ldVxK (fieldX w), fmtRS8_of_fits h⟩,
    fun h => ⟨.ldDTVx (fieldX w), fmtRS8_of_fits h⟩,
    fun h => ⟨.ldSTVx (fieldX w), fmtRS8_of_fits h⟩,
    fun h => ⟨.addIVx (fieldX w), fmtRS8_of_fits h⟩,
    fun h => ⟨.ldFVx (fieldX w), fmtRS8_of_fits h⟩,
    fun h => ⟨.ldBVx (fieldX w), fmtRS8_of_fits h⟩,
    fun h => ⟨.ldMemVx (fieldX w), fmtRS8_of_fits h⟩,
    fun h => ⟨.ldVxMem (fieldX w), fmtRS8_of_fits h⟩,
    List.forall_mem_nil _⟩

/-- Settles O10: the rows are pairwise apart; a word that fits a row is an encoder's word, which decodes, and a word that
decodes is an encoder's word, which fits its row. -/
theorem decoderAcceptsExactlyTableWords : Obligations.DecoderAcceptsExactlyTableWords := by
  refine ⟨fun _ _ _ => eq_of_fits, fun w => ⟨fun h => ?_, fun ⟨i, h⟩ => ?_⟩⟩
  · obtain ⟨r, hr, hw⟩ := legalWord_iff.1 h
    obtain ⟨i, rfl⟩ := exists_encode_of_fits r hr hw
    exact ⟨i, decodeWord_encode i⟩
  · rw [← encode_of_decodeWord h]
    exact wellFormed_of_instr i

/-! ## The illegal words (R88) -/

section Illegal

variable {w : Word}

theorem decode0_error_iff : (∃ r, decode0 w = .error r) ↔ w ≠ 0x00E0 ∧ w ≠ 0x00EE := by
  unfold decode0
  split
  · next h => simp [h]
  · next h => split <;> simp_all

theorem guardN_error_iff {i : Instr} {e : Reject} :
    (∃ r, (if fieldN w = 0 then .ok i else .error e) = Except.error r) ↔ w.toNat % 16 ≠ 0 := by
  rw [← fieldN_toNat]
  split
  · next h => simp [h]
  · next h => simpa [← BitVec.toNat_inj] using h

theorem decode8_error_iff : (∃ r, decode8 w = .error r) ↔ 8 ≤ w.toNat % 16 ∧ w.toNat % 16 ≠ 0xE := by
  have hlt := (fieldN w).isLt
  rw [← fieldN_toNat]
  unfold decode8
  split
  case h_10 => exact ⟨fun _ => by grind, fun _ => ⟨_, rfl⟩⟩
  all_goals next hn => simp [hn]

theorem decodeE_error_iff : (∃ r, decodeE w = .error r) ↔ w.toNat % 256 ∉ [0x9E, 0xA1] := by
  rw [← fieldNN_toNat]
  unfold decodeE
  split <;> simp_all

theorem decodeF_error_iff :
    (∃ r, decodeF w = .error r) ↔ w.toNat % 256 ∉ [0x07, 0x0A, 0x15, 0x18, 0x1E, 0x29, 0x33, 0x55, 0x65] := by
  rw [← fieldNN_toNat]
  unfold decodeF
  split <;> simp_all

end Illegal

/-- Settles O11: in the families 0, 5, 8, 9, E and F the sub-opcode decides, and in every other family each word decodes. -/
theorem illegalWordsAreTheSixFamilies : Obligations.IllegalWordsAreTheSixFamilies := by
  intro w
  have hlt := w.isLt
  have hdiv : w.toNat / 0x1000 = (fieldF w).toNat := by rw [fieldF_toNat]; omega
  have hsmall : w.toNat < 0x1000 ↔ (fieldF w).toNat = 0 := by omega
  rw [hdiv, hsmall]
  unfold decodeWord
  split
  case h_1 hf => rw [decode0_error_iff]; simp [hf]
  case h_6 hf | h_10 hf => rw [guardN_error_iff]; simp [hf]
  case h_9 hf => rw [decode8_error_iff]; simp [hf]
  case h_15 hf => rw [decodeE_error_iff]; simp [hf]
  case h_16 =>
    have hf : fieldF w = 0xF := fieldF_eq_F (by grind)
    rw [decodeF_error_iff]; simp [hf]
  all_goals next hf => simp [hf]

end Sys2Proof

namespace Sys2Proof.Machine

/-! ## What a STEP answers (spec/40_execution_cycle.md R100 to R104) -/

section Fetch

variable {s t : State}

/-- A fetch whose two bytes do not both lie inside memory faults at the first address outside and leaves pc at the fetch
address (R102). -/
theorem fetch_rewind_outside (h : 4096 ≤ s.fetchAddr.toNat + 1) :
    fetch (rewind s) = raise (.memoryOutOfBounds (max s.fetchAddr.toNat 4096) .read (some s.fetchAddr))
      { s with pc := s.fetchAddr } := by
  rw [rewind_eq]
  rcases Nat.eq_or_lt_of_le h with hedge | hout
  · rw [fetch_edge hedge.symm, Nat.max_eq_right (by omega)]
  · rw [fetch_outside (Nat.le_of_lt_succ hout), Nat.max_eq_left (by omega)]

theorem step_of_fetch_outside (hf : s.fault = none) (h : 4096 ≤ s.fetchAddr.toNat + 1) :
    step s = .next { s with
      pc := s.fetchAddr
      fault := some (.memoryOutOfBounds (max s.fetchAddr.toNat 4096) .read (some s.fetchAddr)) } :=
  step_of_fetch_raised hf (fetch_rewind_outside h)

/-- The address in the record of a `DecodeError` is the fetch address, from which pc has been advanced (R33, R103). -/
theorem raiseDecodeError_advanced (w a : Word) (s : State) :
    raiseDecodeError w { s with pc := a + 2 } = { s with pc := a + 2, fault := some (.decodeError w a) } := by
  simp [raiseDecodeError, enterFault, State.instrAddr]

/-- Everything a STEP that answers a next state can have done: a fetch fault, a decode fault, or the decoded instruction. -/
theorem step_next_cases (h : step s = .next t) :
    (4096 ≤ s.fetchAddr.toNat + 1 ∧ ∃ f, t = { s with pc := s.fetchAddr, fault := some f }) ∨
    (∃ r f, decodeWord (s.wordAt s.fetchAddr) = .error r ∧ t = { s with pc := s.fetchAddr + 2, fault := some f }) ∨
    s.fetchAddr.toNat + 1 < 4096 ∧
      ∃ i, decodeWord (s.wordAt s.fetchAddr) = .ok i ∧ exec i { s with pc := s.fetchAddr + 2 } = .next t := by
  have hf := fault_none_of_next h
  rcases Nat.lt_or_ge (s.fetchAddr.toNat + 1) 4096 with hin | hout
  · have hfetch := fetch_rewind_inside hin
    cases hd : decodeWord (s.wordAt s.fetchAddr) with
    | error r =>
      rw [step_of_illegal hf hfetch hd, raiseDecodeError_advanced] at h
      exact .inr (.inl ⟨r, _, rfl, (next_injective h).symm⟩)
    | ok i =>
      rw [step_of_decoded hf hfetch hd] at h
      exact .inr (.inr ⟨hin, i, rfl, h⟩)
  · rw [step_of_fetch_outside hf hout] at h
    exact .inl ⟨hout, _, (next_injective h).symm⟩

end Fetch

/-- Settles O1: inside memory the fetch answers the word at the fetch address and pc two above it. -/
theorem stepRunsDecodedInstruction : Obligations.StepRunsDecodedInstruction :=
  fun _ _ hf hin hd => step_of_decoded hf (fetch_rewind_inside hin) hd

/-- Settles O3: the first address outside memory is the fetch address itself, or 4096 where only the second byte is
outside. -/
theorem fetchOutsideMemoryFaults : Obligations.FetchOutsideMemoryFaults := by
  refine fun s hf => ⟨fun h => ?_, fun h => ?_⟩
  · rw [step_of_fetch_outside hf (by omega), Nat.max_eq_left h]
  · rw [step_of_fetch_outside hf (by omega), Nat.max_eq_right (by omega)]

/-- Settles O4: the fetch succeeds, and the decode fault is taken on the state it leaves. -/
theorem illegalWordFaultsAfterAdvance : Obligations.IllegalWordFaultsAfterAdvance := by
  intro s r hf hin hd
  rw [step_of_illegal hf (fetch_rewind_inside hin) hd, raiseDecodeError_advanced]

/-! ## Executing answers a next state (spec/40_execution_cycle.md R104, spec/60_exceptions.md R240, R241) -/

/-- The operation, begun with the given fault record, either completes and keeps it or raises a fault of the given kind. -/
def Res.RaisesOnly {α : Type} (p : Fault → Prop) (before : Option Fault) : Res α → Prop
  | .ok _ t => t.fault = before
  | .raised t => ∃ f, p f ∧ t.fault = some f

section RaisesOnly

variable {α β : Type} {p : Fault → Prop} {before : Option Fault}

theorem Res.RaisesOnly.bind {r : Res α} {k : α → State → Res β} (hr : r.RaisesOnly p before)
    (hk : ∀ a t, t.fault = before → (k a t).RaisesOnly p before) : (r.bind k).RaisesOnly p before := by
  cases r with
  | ok a t => exact hk a t hr
  | raised t => exact hr

theorem raise_raisesOnly {f : Fault} (s : State) (h : p f) : (raise f s : Res α).RaisesOnly p before := ⟨f, h, rfl⟩

theorem pop_raisesOnly {s : State} (h : s.stack = [] → p (.stackUnderflow s.instrAddr)) :
    (pop s).RaisesOnly p s.fault := by
  rcases List.eq_nil_or_concat s.stack with hs | ⟨st, w, hs⟩
  · rw [pop_of_empty hs]
    exact raise_raisesOnly s (h hs)
  · rw [pop_of_append (hs.trans List.concat_eq_append)]
    rfl

theorem keyOperand_raisesOnly {x : Reg} {s : State}
    (h : 16 ≤ (s.reg x).toNat → p (.keyOutOfRange (s.reg x) s.instrAddr)) : (keyOperand x s).RaisesOnly p s.fault := by
  rcases Nat.lt_or_ge (s.reg x).toNat 16 with hlt | hge
  · rw [keyOperand, keyOf_of_lt hlt]
    rfl
  · rw [keyOperand, keyOf_of_ge hge]
    exact raise_raisesOnly s (h hge)

theorem storeBytes_raisesOnly {ia : Option Word} {a : Nat} {bs : List Byte} {s : State} (hn : bs ≠ [])
    (h : p (.memoryOutOfBounds (max a 4096) .write ia)) : (storeBytes ia a bs s).RaisesOnly p s.fault := by
  rcases Nat.lt_or_ge Config.memSize (a + bs.length) with hout | hin
  · rw [storeBytes_outside hn hout]
    exact raise_raisesOnly _ h
  · rw [storeBytes_inside hin]
    rfl

theorem loadRegs_raisesOnly {ia : Option Word} {a : Nat} {rs : List Reg} {s : State} (hd : rs.Nodup) (hn : rs ≠ [])
    (h : p (.memoryOutOfBounds (max a 4096) .read ia)) : (loadRegs ia a rs s).RaisesOnly p s.fault := by
  rcases Nat.lt_or_ge Config.memSize (a + rs.length) with hout | hin
  · obtain ⟨t, ht, -⟩ := loadRegs_outside (ia := ia) (s := s) hd hn hout
    rw [ht]
    exact raise_raisesOnly t h
  · obtain ⟨t, ht, hf, -⟩ := loadRegs_inside (ia := ia) (s := s) hd hin
    rw [ht]
    show t.fault = s.fault
    rw [hf]

theorem drawRows_raisesOnly {ia : Option Word} {vx : Byte} {n a : Nat} {y : Byte} {c : Bool} {s : State} (hn : n ≤ 32)
    (h : p (.memoryOutOfBounds (max a 4096) .read ia)) : (drawRows ia vx n a y c s).RaisesOnly p s.fault := by
  by_cases hin : n = 0 ∨ a + n ≤ Config.memSize
  · obtain ⟨t, c', ht, hf, -⟩ := drawRows_inside (ia := ia) (vx := vx) (y := y) (c := c) (s := s) hn hin
    rw [ht]
    show t.fault = s.fault
    rw [hf]
  · obtain ⟨hn0, hout⟩ := not_or.1 hin
    obtain ⟨t, ht, -⟩ := drawRows_outside (ia := ia) (vx := vx) (y := y) (c := c) (s := s) hn hn0 (Nat.not_le.1 hout)
    rw [ht]
    exact raise_raisesOnly t h

end RaisesOnly

theorem regsUpTo_ne_nil (x : Reg) : regsUpTo x ≠ [] :=
  List.ne_nil_of_length_pos (by rw [length_regsUpTo]; exact Nat.succ_pos _)

/-- Executing answers a next state whose fault record is the one before or one that the instruction may raise. -/
def AnswersNext (i : Instr) (s : State) : Prop :=
  ∃ t, exec i s = .next t ∧ (t.fault = s.fault ∨ ∃ f, mayRaise i s f ∧ t.fault = some f)

/-- An instruction that is an operation raising only the instruction's own fault answers a next state. -/
theorem answersNext_of_outcome {i : Instr} {s : State} {r : Res Unit} (h : exec i s = r.outcome)
    (hr : r.RaisesOnly (mayRaise i s) s.fault) : AnswersNext i s := by
  cases r with
  | ok _ t => exact ⟨t, h, .inl hr⟩
  | raised t => exact ⟨t, h, .inr hr⟩

/-- So does one that goes on, after such an operation, to a completion that keeps the fault record. -/
theorem answersNext_of_bind {α : Type} {i : Instr} {s : State} {r : Res α} {k : α → State → Res Unit}
    (h : exec i s = (r.bind k).outcome) (hr : r.RaisesOnly (mayRaise i s) s.fault)
    (hk : ∀ a t, t.fault = s.fault → (k a t).RaisesOnly (mayRaise i s) s.fault) : AnswersNext i s :=
  answersNext_of_outcome h (hr.bind hk)

@[simp] theorem skipIf_fault (c : Bool) (s : State) : (skipIf c s).fault = s.fault := by
  rw [skipIf_frame]

theorem answersNext_ldVxK (x : Reg) (s : State) : AnswersNext (.ldVxK x) s := by
  cases hl : s.lowestPressed with
  | none => exact ⟨_, exec_ldVxK_none (lowestPressed_eq_none.1 hl), .inl rfl⟩
  | some k =>
    obtain ⟨hk, hlow⟩ := lowestPressed_eq_some.1 hl
    exact ⟨_, exec_ldVxK_some hk hlow, .inl rfl⟩

/-- Settles O7: an instruction that can raise is one operation that raises only its own fault, and then a completion that
keeps the record; every other instruction keeps it. -/
theorem execAlwaysAnswersNext : Obligations.ExecAlwaysAnswersNext := by
  intro i s
  show AnswersNext i s
  cases i
  case ret =>
    exact answersNext_of_bind rfl (pop_raisesOnly fun hs => ⟨hs, rfl⟩) fun _ _ ht => ht
  case seImm | sneImm | seReg | sneReg => exact ⟨_, rfl, .inl (skipIf_fault _ s)⟩
  case skp | sknp =>
    exact answersNext_of_bind rfl (keyOperand_raisesOnly fun hx => ⟨hx, rfl⟩)
      fun _ t ht => (skipIf_fault _ t).trans ht
  case drw x y n =>
    have hn : n.toNat ≤ 32 := by omega
    exact answersNext_of_bind rfl (drawRows_raisesOnly hn rfl) fun _ _ ht => ht
  case ldVxK x => exact answersNext_ldVxK x s
  case ldBVx x =>
    have hn : bcdDigits (s.reg x) ≠ [] := List.cons_ne_nil _ _
    exact answersNext_of_outcome rfl (storeBytes_raisesOnly hn rfl)
  case ldMemVx x =>
    have hn : (regsUpTo x).map s.reg ≠ [] := mt List.map_eq_nil_iff.1 (regsUpTo_ne_nil x)
    exact answersNext_of_bind rfl (storeBytes_raisesOnly hn rfl) fun _ _ ht => ht
  case ldVxMem x =>
    exact answersNext_of_bind rfl (loadRegs_raisesOnly (nodup_regsUpTo x) (regsUpTo_ne_nil x) rfl) fun _ _ ht => ht
  all_goals exact ⟨_, rfl, .inl rfl⟩

/-! ## The invariant (spec/40_execution_cycle.md R105, spec/20_memory.md R60) -/

section Invariant

variable {i : Instr} {s t : State}

theorem awaitsFX0A_of_running (h : s.halted = false) : s.awaitsFX0A :=
  fun hh => absurd hh (Bool.eq_false_iff.1 h)

/-- On a halted core that awaits its FX0A, the next fetch is inside memory and gives that FX0A (R101, R105). -/
theorem fetch_of_awaitsFX0A (ha : s.awaitsFX0A) (hh : s.halted = true) :
    s.fetchAddr.toNat + 1 < 4096 ∧ ∃ x, decodeWord (s.wordAt s.fetchAddr) = .ok (.ldVxK x) := by
  obtain ⟨x, hin, hw⟩ := ha hh
  rw [fetchAddr_halted hh]
  exact ⟨hin, x, by rw [hw, decodeWord_ldVxK]⟩

/-- Whatever the instruction, memory stays canonical: only FX33 and FX55 write it, each by a list of byte writes. -/
theorem exec_mem_wf (hw : s.mem.wf = true) (h : exec i s = .next t) : t.mem.wf = true := by
  by_cases hm : t.mem = s.mem
  · rw [hm]; exact hw
  · obtain ⟨x, rfl | rfl⟩ := (exec_changes h).mem_writer hm
    · change execLdBVx x s = _ at h
      obtain ⟨m, hwf, hs | ⟨e, hs⟩⟩ := storeBytes_frame (ia := some s.instrAddr) (bs := bcdDigits (s.reg x))
        (a := s.dataAddr) hw
      all_goals
        rw [execLdBVx, hs] at h
        cases next_injective h
        exact hwf
    · change execLdMemVx x s = _ at h
      obtain ⟨m, hwf, hs | ⟨e, hs⟩⟩ := storeBytes_frame (ia := some s.instrAddr) (bs := (regsUpTo x).map s.reg)
        (a := s.dataAddr) hw
      all_goals
        rw [execLdMemVx, hs] at h
        cases next_injective h
        exact hwf

/-- FX0A leaves pc and memory alone, so its own word stays two below pc (R33, R105). -/
theorem exec_ldVxK_fx0aBefore {x : Reg} (hb : s.fx0aBefore x) (h : exec (.ldVxK x) s = .next t) : t.fx0aBefore x := by
  rw [show t = _ from exec_changes h]
  exact hb

/-- After the fetch of a word at a, that word is two below pc. -/
theorem fx0aBefore_of_fetched {x : Reg} {a : Word} (hin : a.toNat + 1 < 4096)
    (hd : decodeWord (s.wordAt a) = .ok (.ldVxK x)) : ({ s with pc := a + 2 } : State).fx0aBefore x := by
  have hpc : ({ s with pc := a + 2 } : State).pc - 2 = a := BitVec.add_sub_cancel a 2
  rw [State.fx0aBefore, hpc]
  exact ⟨hin, (encode_of_decodeWord hd).symm⟩

theorem exec_halted_of_ne (hi : ∀ x, i ≠ .ldVxK x) (h : exec i s = .next t) : t.halted = s.halted := by
  by_contra hne
  obtain ⟨x, hx⟩ := (exec_changes h).halted_writer hne
  exact hi x hx

end Invariant

/-- Settles O51: a core that awaits its FX0A fetches it again, so in every other case the core runs before the step. A fault
and every instruction but FX0A leave `halted` alone, and after FX0A its word is two below pc. -/
theorem stepKeepsInvariant : Obligations.StepKeepsInvariant := by
  rintro s t ⟨hw, ha⟩ h
  have hfetch := fetch_of_awaitsFX0A ha
  rcases step_next_cases h with ⟨hout, f, rfl⟩ | ⟨r, f, hd, rfl⟩ | ⟨hin, i, hd, he⟩
  · refine ⟨hw, fun hh => ?_⟩
    exact absurd (hfetch hh).1 (Nat.not_lt.2 hout)
  · refine ⟨hw, fun hh => ?_⟩
    obtain ⟨-, x, hx⟩ := hfetch hh
    cases hd.symm.trans hx
  · refine ⟨exec_mem_wf (s := { s with pc := s.fetchAddr + 2 }) hw he, fun hh => ?_⟩
    by_cases hi : ∃ x, i = .ldVxK x
    · obtain ⟨x, rfl⟩ := hi
      exact ⟨x, exec_ldVxK_fx0aBefore (fx0aBefore_of_fetched hin hd) he⟩
    · have hhalted := exec_halted_of_ne (not_exists.1 hi) he
      obtain ⟨-, x, hx⟩ := hfetch (hhalted.symm.trans hh)
      cases hd.symm.trans hx
      exact absurd ⟨x, rfl⟩ hi

/-- Settles O50: memory lists nothing, and the core runs. -/
theorem resetSatisfiesInvariant : Obligations.ResetSatisfiesInvariant := ⟨reset_mem_wf, awaitsFX0A_of_running rfl⟩

/-! ## The invariant under the host's operations (spec/60_exceptions.md R250, spec/70_reset_and_hazards.md R270) -/

section HostOps

variable {s : State}

theorem resetWith_halted (p : List Byte) (s : State) : (resetWith p s).halted = false := by
  rw [resetWith_eq]; rfl

theorem resetWith_inv (p : List Byte) (s : State) : (resetWith p s).Inv := by
  refine ⟨?_, awaitsFX0A_of_running (resetWith_halted p s)⟩
  have hlen : (p.take 3584).length ≤ 3584 := List.length_take_le _ _
  rw [resetWith_mem]
  exact Memory.writeList_wf reset_mem_wf (by simp only [Config.memSize]; omega)

theorem stepOp_inv (h : s.Inv) : (stepOp s).1.Inv := by
  unfold stepOp
  split
  · next t ht => exact stepKeepsInvariant s t h ht
  · exact h
  · exact h

/-- TICK leaves memory, pc and `halted` alone. -/
theorem tick_inv (h : s.Inv) : (tick s).Inv := by
  unfold tick tickWith
  split <;> exact h

/-- A key event leaves memory, pc and `halted` alone. -/
theorem keyEvent_inv (k : Key) (down : Bool) (h : s.Inv) : (keyEvent k down s).Inv := by
  unfold keyEvent
  split <;> exact h

end HostOps

/-- Settles O52: RESET establishes the invariant, STEP keeps it (`stepKeepsInvariant`), and no other operation touches what
it speaks of. -/
theorem hostOperationsKeepInvariant : Obligations.HostOperationsKeepInvariant := by
  refine ⟨fun o s h => ?_, resetWith_inv⟩
  cases o with
  | reset p => exact resetWith_inv p s
  | step => exact stepOp_inv h
  | tick => exact tick_inv h
  | keyDown k => exact keyEvent_inv k true h
  | keyUp k => exact keyEvent_inv k false h
  | readPixel x y => exact h
  | readStatus => exact h

end Sys2Proof.Machine

namespace Sys2Proof.Machine

/-! ## Control transfer (spec/41_control_flow.md R120 to R129) -/

section Control

variable {s : State}

/-- A return goes to the address on top of the stack and takes it off (R120). -/
theorem exec_ret_of_append {st : List Word} {w : Word} (h : s.stack = st ++ [w]) :
    exec .ret s = .next { s with pc := w, stack := st } := by
  show execRet s = _
  rw [execRet, pop_of_append h, Res.bind_ok, Res.outcome_ok]

theorem exec_ret_of_empty (h : s.stack = []) :
    exec .ret s = .next (enterFault (.stackUnderflow s.instrAddr) s) := by
  show execRet s = _
  rw [execRet, pop_of_empty h, Res.bind_raise, Res.outcome_raise]

theorem exec_call (nnn : Addr12) (s : State) :
    exec (.call nnn) s = .next { s with pc := zext12 nnn, stack := s.stack ++ [s.pc] } := by
  show execCall nnn s = _
  rw [execCall, push_unbounded, Res.bind_ok, Res.outcome_ok]

theorem pushWith_full {depth : Option Nat} (w : Word) (h : depth = some s.stack.length) :
    pushWith depth w s = raise (.stackOverflow s.instrAddr) s := if_pos h

theorem pushWith_room {depth : Option Nat} (w : Word) (h : depth ≠ some s.stack.length) :
    pushWith depth w s = .ok () { s with stack := s.stack ++ [w] } := if_neg h

/-- The sum of a 12-bit and an 8-bit number fits in 16 bits, so the target of BNNN is exact (R124). -/
theorem zext12_add_zext8_toNat (nnn : Addr12) (b : Byte) : (zext12 nnn + zext8 b).toNat = nnn.toNat + b.toNat := by
  have hn := nnn.isLt
  have hb := b.isLt
  rw [BitVec.toNat_add_of_lt (by rw [zext12_toNat, zext8_toNat]; omega), zext12_toNat, zext8_toNat]

/-- A skip on equality (R125, R126, R128). -/
theorem skipIf_beq (a b : Byte) (s : State) : skipIf (a == b) s = if a = b then { s with pc := s.pc + 2 } else s := by
  simp only [skipIf, beq_iff_eq]

/-- A skip on inequality (R125, R127, R129). -/
theorem skipIf_bne (a b : Byte) (s : State) : skipIf (a != b) s = if a = b then s else { s with pc := s.pc + 2 } := by
  simp only [skipIf, bne_iff_ne, ite_not]

/-- In families 5 and 9 only the low nibble 0 is an instruction (R88). -/
theorem decodeWord_fmtRRS_error {f n : Nibble} (x y : Reg) (hf : f = 0x5 ∨ f = 0x9) (hn : n ≠ 0) :
    ∃ r, decodeWord (fmtRRS f x y n) = .error r := by
  have hw := fmtRRS_toNat f x y n
  have hn0 : n.toNat ≠ 0 := fun h => hn (BitVec.eq_of_toNat_eq h)
  have hlow : (fmtRRS f x y n).toNat % 16 ≠ 0 := by omega
  have hfam : (fmtRRS f x y n).toNat / 0x1000 = f.toNat := by omega
  apply (illegalWordsAreTheSixFamilies _).2
  rcases hf with rfl | rfl
  · exact .inr (.inl ⟨hfam, hlow⟩)
  · exact .inr (.inr (.inr (.inl ⟨hfam, hlow⟩)))

end Control

/-- Settles O13: a nonempty stack gives up its last word to pc, and an empty one is a fault with pc left at a + 2. -/
theorem returnPopsCallStack : Obligations.ReturnPopsCallStack :=
  ⟨rfl, fun _ => ⟨fun _ _ => exec_ret_of_append, exec_ret_of_empty⟩⟩

/-- Settles O14: zero-extending NNN keeps its value. -/
theorem jumpSetsPc : Obligations.JumpSetsPc :=
  fun nnn _ => ⟨fmtA12_toNat 0x1 nnn, _, rfl, rfl, zext12_toNat nnn⟩

/-- Settles O15: the unbounded stack takes the push, so the call always goes through. -/
theorem callPushesReturnAddress : Obligations.CallPushesReturnAddress :=
  fun nnn s => ⟨fmtA12_toNat 0x2 nnn, _, exec_call nnn s, rfl, zext12_toNat nnn, rfl⟩

/-- Settles O16: a stack is full exactly when its depth is its length, and an unbounded one is never full. -/
theorem boundedStackOverflows : Obligations.BoundedStackOverflows := by
  refine fun w s => ⟨fun d hd => ?_, fun d hd => ?_, ?_, rfl⟩
  · exact pushWith_full w (congrArg some hd)
  · exact pushWith_room w (mt Option.some.inj hd)
  · exact pushWith_room w (Option.some_ne_none _).symm

/-- Settles O17: the sum of NNN and V0 stays below 2^16. -/
theorem jumpWithOffset : Obligations.JumpWithOffset :=
  fun nnn s => ⟨fmtA12_toNat 0xB nnn, _, rfl, rfl, zext12_add_zext8_toNat nnn (s.reg 0)⟩

/-- Settles O18: both are skips, on V[X] = NN and on its negation. -/
theorem skipsOnImmediate : Obligations.SkipsOnImmediate :=
  fun x nn s => ⟨fmtRI8_toNat 0x3 x nn, fmtRI8_toNat 0x4 x nn,
    congrArg _ (skipIf_beq (s.reg x) nn s), congrArg _ (skipIf_bne (s.reg x) nn s)⟩

/-- Settles O19: both are skips, on V[X] = V[Y] and on its negation, and a low nibble other than 0 is illegal. -/
theorem skipsOnRegisters : Obligations.SkipsOnRegisters := by
  refine fun x y s => ⟨fmtRRS_toNat' 0x5 x y 0 rfl, fmtRRS_toNat' 0x9 x y 0 rfl,
    congrArg _ (skipIf_beq (s.reg x) (s.reg y) s), congrArg _ (skipIf_bne (s.reg x) (s.reg y) s), fun n hn => ?_⟩
  obtain ⟨r, hr⟩ := decodeWord_fmtRRS_error x y (.inl rfl) hn
  obtain ⟨q, hq⟩ := decodeWord_fmtRRS_error x y (.inr rfl) hn
  exact ⟨r, q, hr, hq⟩

end Sys2Proof.Machine

namespace Sys2Proof.Machine

/-! ## Register loads, the ALU and the random draw (spec/42_alu.md R141 to R157) -/

/-- Subtraction mod 256 as the spec counts it, with the borrow taken from 256 (R148, R150). -/
theorem byte_sub_eq_ofNat (a b : Byte) : a - b = BitVec.ofNat 8 (a.toNat + 256 - b.toNat) := by
  have hb := b.isLt
  apply BitVec.eq_of_toNat_eq
  rw [BitVec.toNat_sub, BitVec.toNat_ofNat]
  congr 1
  omega

/-- Shifting right by one halves (R149). -/
theorem byte_ushiftRight_one_eq_ofNat (b : Byte) : b >>> 1 = BitVec.ofNat 8 (b.toNat / 2) := by
  have hb := b.isLt
  apply BitVec.eq_of_toNat_eq
  rw [BitVec.toNat_ushiftRight, BitVec.toNat_ofNat, Nat.shiftRight_one]
  omega

/-- Shifting left by one doubles (R151). -/
theorem byte_shiftLeft_one_eq_ofNat (b : Byte) : b <<< 1 = BitVec.ofNat 8 (b.toNat * 2) := by
  apply BitVec.eq_of_toNat_eq
  rw [BitVec.toNat_shiftLeft, BitVec.toNat_ofNat, Nat.shiftLeft_eq, Nat.pow_one]

theorem carryFlag_iff (a b : Byte) : carryFlag a b = true ↔ 256 ≤ a.toNat + b.toNat := decide_eq_true_iff

theorem noBorrowFlag_iff (a b : Byte) : noBorrowFlag a b = true ↔ b.toNat ≤ a.toNat := decide_eq_true_iff

/-- Bit 0 is set in the odd numbers (R149). -/
theorem lsbFlag_iff (b : Byte) : lsbFlag b = true ↔ b.toNat % 2 = 1 := by
  rw [lsbFlag, BitVec.getLsbD, Nat.testBit_zero, decide_eq_true_iff]

/-- Bit 7 of a byte is set from 128 on (R151). -/
theorem msbFlag_iff (b : Byte) : msbFlag b = true ↔ 128 ≤ b.toNat := by
  rw [msbFlag, ← BitVec.msb_eq_getLsbD_last, BitVec.msb_eq_decide, decide_eq_true_iff]

/-- Writes to different registers may be made in either order (R152). -/
theorem setReg_comm (s : State) {r q : Reg} (a b : Byte) (h : r ≠ q) :
    (s.setReg r a).setReg q b = (s.setReg q b).setReg r a := by
  have hv : r.val ≠ q.val := fun e => h (Fin.ext e)
  simp only [State.setReg, Vector.set_comm _ _ hv]

/-- With the flag first, the result is the last write to V[X] (R152). -/
theorem reg_writeResultAndFlagWith_false (x : Reg) (r : Byte) (f : Bool) (s : State) :
    (writeResultAndFlagWith false x r f s).reg x = r := reg_setReg_self _ x r

/-- For X other than F the order of the two writes changes nothing (R152). -/
theorem writeResultAndFlagWith_comm {x : Reg} (r : Byte) (f : Bool) (s : State) (h : x ≠ VF) :
    writeResultAndFlagWith true x r f s = writeResultAndFlagWith false x r f s := setReg_comm s r (flagByte f) h

/-- Settles O20: one write to V[X]. -/
theorem loadImmediate : Obligations.LoadImmediate :=
  fun x nn s => ⟨fmtRI8_toNat 0x6 x nn, _, rfl, writesReg_setReg x s rfl⟩

/-- Settles O21: one write to V[X], of the sum of the bytes. -/
theorem addImmediateWraps : Obligations.AddImmediateWraps :=
  fun x nn s => ⟨fmtRI8_toNat 0x7 x nn, _, rfl, writesReg_setReg x s (BitVec.add_def (s.reg x) nn)⟩

/-- Settles O22: one write to V[X], of what V[Y] held. -/
theorem copyRegister : Obligations.CopyRegister :=
  fun x y s => ⟨fmtRRS_toNat' 0x8 x y 0x0 rfl, _, rfl, writesReg_setReg x s rfl⟩

/-- Settles O23: each is one write to V[X], and none of them writes a flag. -/
theorem bitwiseOperations : Obligations.BitwiseOperations :=
  fun x y s => ⟨fmtRRS_toNat' 0x8 x y 0x1 rfl, fmtRRS_toNat' 0x8 x y 0x2 rfl, fmtRRS_toNat' 0x8 x y 0x3 rfl,
    ⟨_, rfl, writesReg_setReg x s rfl⟩, ⟨_, rfl, writesReg_setReg x s rfl⟩, ⟨_, rfl, writesReg_setReg x s rfl⟩⟩

/-- Settles O24: the sum of the bytes is the sum mod 256, and the flag is its carry. -/
theorem addSetsCarry : Obligations.AddSetsCarry :=
  fun x y s => ⟨fmtRRS_toNat' 0x8 x y 0x4 rfl, _, rfl,
    writesRegAndFlag_writeResultAndFlag x s (BitVec.add_def (s.reg x) (s.reg y)) (carryFlag_iff (s.reg x) (s.reg y))⟩

/-- Settles O25: the difference with its borrow taken from 256, and the flag that there was none. -/
theorem subtractSetsNotBorrow : Obligations.SubtractSetsNotBorrow :=
  fun x y s => ⟨fmtRRS_toNat' 0x8 x y 0x5 rfl, _, rfl,
    writesRegAndFlag_writeResultAndFlag x s (byte_sub_eq_ofNat (s.reg x) (s.reg y)) (noBorrowFlag_iff (s.reg x) (s.reg y))⟩

/-- Settles O26: the shift halves V[Y], and the bit shifted out says that V[Y] was odd. -/
theorem shiftRightSetsLowBit : Obligations.ShiftRightSetsLowBit :=
  fun x y s => ⟨fmtRRS_toNat' 0x8 x y 0x6 rfl, _, rfl,
    writesRegAndFlag_writeResultAndFlag x s (byte_ushiftRight_one_eq_ofNat (s.reg y)) (lsbFlag_iff (s.reg y))⟩

/-- Settles O27: as O25, with the operands exchanged. -/
theorem reverseSubtractSetsNotBorrow : Obligations.ReverseSubtractSetsNotBorrow :=
  fun x y s => ⟨fmtRRS_toNat' 0x8 x y 0x7 rfl, _, rfl,
    writesRegAndFlag_writeResultAndFlag x s (byte_sub_eq_ofNat (s.reg y) (s.reg x)) (noBorrowFlag_iff (s.reg y) (s.reg x))⟩

/-- Settles O28: the shift doubles V[Y], and the bit shifted out says that V[Y] was 128 or more. -/
theorem shiftLeftSetsHighBit : Obligations.ShiftLeftSetsHighBit :=
  fun x y s => ⟨fmtRRS_toNat' 0x8 x y 0xE rfl, _, rfl,
    writesRegAndFlag_writeResultAndFlag x s (byte_shiftLeft_one_eq_ofNat (s.reg y)) (msbFlag_iff (s.reg y))⟩

/-- Settles O29: the last write to a register is what it ends as, and writes to different registers commute. -/
theorem flagWrittenLast : Obligations.FlagWrittenLast := by
  refine fun x r f s => ⟨reg_setReg_self _ VF (flagByte f), reg_writeResultAndFlagWith_false VF r f s, fun h => ?_, rfl⟩
  have hcomm := writeResultAndFlagWith_comm r f s h
  exact ⟨hcomm, hcomm ▸ reg_writeResultAndFlagWith_false x r f s⟩

/-- Settles O30: the draw counts one, and its byte, masked, is the one write to a register; the mask 0 leaves nothing of it. -/
theorem randomByteIsMasked : Obligations.RandomByteIsMasked := by
  refine fun x nn s => ⟨fmtRI8_toNat 0xC x nn, _, rfl, rfl, ?_, fun hn => ?_, fun r hr => ?_⟩
  · exact reg_setReg_self _ x _
  · rw [reg_setReg_self, hn]; exact BitVec.and_zero
  · exact reg_setReg_ne _ _ hr

end Sys2Proof.Machine

namespace Sys2Proof.Machine

/-! ## The index register and the memory transfers (spec/43_index_memory.md R170 to R175) -/

section Transfers

variable {s : State} {x : Reg}

/-- Five times a byte stays below 2^16, so the glyph address is exact (R172). -/
theorem glyphAddr_toNat (b : Byte) : (glyphAddr b).toNat = b.toNat * 5 := by
  have hb := b.isLt
  rw [glyphAddr, Config.fontGlyphBytes, BitVec.toNat_mul, zext8_toNat, BitVec.toNat_ofNat]
  omega

/-- An operation that goes through is followed by its completion. -/
theorem Res.outcome_bind_of_ok {r : Res Unit} {k : Unit → State → Res Unit} {t : State} (h : r = .ok () t) :
    (r.bind k).outcome = (k () t).outcome := by
  rw [h, Res.bind_ok]

/-- An operation that raises ends the instruction (R14, R241). -/
theorem Res.outcome_bind_of_raised {r : Res Unit} {k : Unit → State → Res Unit} {t : State} (h : r = .raised t) :
    (r.bind k).outcome = .next t := by
  rw [h, Res.bind_raised, Res.outcome_raised]

/-- A transfer that ends inside memory advances I without a wrap (R174, R175). -/
theorem advanceI_i_toNat (h : s.dataAddr + x.val + 1 ≤ 4096) : (s.advanceI x).i.toNat = s.dataAddr + x.val + 1 := by
  have hi : s.i.toNat = s.dataAddr := rfl
  rw [State.advanceI_i, BitVec.toNat_add, BitVec.toNat_ofNat, hi]
  omega

/-- V0 to VX are listed each at its own number. -/
theorem regsUpTo_getElem_of_le {k : Reg} (h : k ≤ x) : ∃ hk : k.val < (regsUpTo x).length, (regsUpTo x)[k.val] = k :=
  ⟨by rw [length_regsUpTo]; exact Nat.lt_succ_of_le h, getElem_regsUpTo x k.val _⟩

theorem map_regsUpTo_getElem_of_le {k : Reg} (f : Reg → Byte) (h : k ≤ x) :
    ∃ hk : k.val < ((regsUpTo x).map f).length, ((regsUpTo x).map f)[k.val] = f k := by
  obtain ⟨hk, he⟩ := regsUpTo_getElem_of_le h
  exact ⟨by rwa [List.length_map], by rw [List.getElem_map, he]⟩

/-- A load of V0 to VX that fits in memory: each register takes the byte at its own place (R175). -/
theorem loadRegs_regsUpTo_fits {ia : Option Word} (h : s.dataAddr + x.val + 1 ≤ 4096) :
    ∃ t, loadRegs ia s.dataAddr (regsUpTo x) s = .ok () t ∧ t = { s with v := t.v } ∧
      (∀ k : Reg, k ≤ x → t.reg k = s.mem.read (s.dataAddr + k.val)) ∧ ∀ k : Reg, x < k → t.reg k = s.reg k := by
  obtain ⟨t, ht, hf, hin, hout⟩ := loadRegs_inside (ia := ia) (a := s.dataAddr) (s := s) (nodup_regsUpTo x)
    (by rw [length_regsUpTo]; exact h)
  refine ⟨t, ht, hf, fun k hk => ?_, fun k hk => hout k fun hm => Nat.not_le.2 hk (mem_regsUpTo.1 hm)⟩
  obtain ⟨hlt, he⟩ := regsUpTo_getElem_of_le hk
  rw [← hin k.val hlt, he]

/-- A load of V0 to VX that leaves memory: the registers whose byte lies inside are loaded, and it faults at the first byte
past the end (R175). -/
theorem loadRegs_regsUpTo_over {ia : Option Word} (h : 4096 < s.dataAddr + x.val + 1) :
    ∃ t, loadRegs ia s.dataAddr (regsUpTo x) s = raise (.memoryOutOfBounds (max s.dataAddr 4096) .read ia) t ∧
      t = { s with v := t.v } ∧
      (∀ k : Reg, k ≤ x → s.dataAddr + k.val < 4096 → t.reg k = s.mem.read (s.dataAddr + k.val)) ∧
      ∀ k : Reg, (x < k ∨ 4096 ≤ s.dataAddr + k.val) → t.reg k = s.reg k := by
  obtain ⟨t, ht, hf, hin, hkeep, hout⟩ := loadRegs_outside (ia := ia) (a := s.dataAddr) (s := s) (nodup_regsUpTo x)
    (regsUpTo_ne_nil x) (by rw [length_regsUpTo]; exact h)
  refine ⟨t, ht, hf, fun k hk hlt => ?_, fun k hor => ?_⟩
  · obtain ⟨hl, he⟩ := regsUpTo_getElem_of_le hk
    rw [← hin k.val hl hlt, he]
  · by_cases hk : k ≤ x
    · obtain ⟨hl, he⟩ := regsUpTo_getElem_of_le hk
      have hge : 4096 ≤ s.dataAddr + k.val := hor.resolve_left (Nat.not_lt.2 hk)
      rw [← he]
      exact hkeep k.val hl hge
    · exact hout k (mt mem_regsUpTo.1 hk)

end Transfers

/-- Settles O34: the three bytes stored are the digits of V[X] (`bcdDigits_getElem`), whether they fit in memory or leave it. -/
theorem storeDecimalDigits : Obligations.StoreDecimalDigits := by
  refine fun x s hw => ⟨fmtRS8_toNat' 0xF x 0x33 rfl, fun hin => ?_, fun hout => ?_⟩
  · obtain ⟨m, hm, hread, hkeep⟩ := storeBytes_fits (ia := some s.instrAddr) (bs := bcdDigits (s.reg x)) hw hin
    exact ⟨_, congrArg Res.outcome hm, rfl, fun j hj => (hread j hj).trans (bcdDigits_getElem _ j hj), hkeep⟩
  · obtain ⟨m, hm, hread, hkeep⟩ :=
      storeBytes_over (ia := some s.instrAddr) (bs := bcdDigits (s.reg x)) hw (List.cons_ne_nil _ _) hout
    exact ⟨_, congrArg Res.outcome hm, rfl, fun j hj hlt => (hread j hj hlt).trans (bcdDigits_getElem _ j hj), hkeep⟩

/-- Settles O35: byte k of the store is V[k], and only a store that fits in memory goes on to advance I. -/
theorem storeRegistersAdvancesIndex : Obligations.StoreRegistersAdvancesIndex := by
  intro x s hw
  have hlen : ((regsUpTo x).map s.reg).length = x.val + 1 := by rw [List.length_map, length_regsUpTo]
  have hne : (regsUpTo x).map s.reg ≠ [] := mt List.map_eq_nil_iff.1 (regsUpTo_ne_nil x)
  refine ⟨fmtRS8_toNat' 0xF x 0x55 rfl, fun hin => ?_, fun hout => ?_⟩
  · obtain ⟨m, hm, hread, hkeep⟩ :=
      storeBytes_fits (ia := some s.instrAddr) (bs := (regsUpTo x).map s.reg) hw (by omega)
    refine ⟨_, Res.outcome_bind_of_ok hm, rfl, advanceI_i_toNat hin, fun k hk => ?_, fun a ha => hkeep a (by omega)⟩
    obtain ⟨hl, he⟩ := map_regsUpTo_getElem_of_le s.reg hk
    exact (hread k.val hl).trans he
  · obtain ⟨m, hm, hread, hkeep⟩ :=
      storeBytes_over (ia := some s.instrAddr) (bs := (regsUpTo x).map s.reg) hw hne (by omega)
    refine ⟨_, Res.outcome_bind_of_raised hm, rfl, fun k hk hlt => ?_, hkeep⟩
    obtain ⟨hl, he⟩ := map_regsUpTo_getElem_of_le s.reg hk
    exact (hread k.val hl hlt).trans he

/-- Settles O36: V0 to VX take the bytes at their own places (`loadRegs_regsUpTo_fits`, `loadRegs_regsUpTo_over`), and only a
load that fits in memory goes on to advance I. -/
theorem loadRegistersAdvancesIndex : Obligations.LoadRegistersAdvancesIndex := by
  refine fun x s => ⟨fmtRS8_toNat' 0xF x 0x65 rfl, fun hin => ?_, fun hout => ?_⟩
  · obtain ⟨t, ht, hf, hload, hkeep⟩ := loadRegs_regsUpTo_fits (ia := some s.instrAddr) hin
    have ha : t.dataAddr = s.dataAddr := (congrArg State.dataAddr hf).trans rfl
    refine ⟨t.advanceI x, Res.outcome_bind_of_ok ht, by rw [hf]; rfl, ?_, hload, hkeep⟩
    rw [← ha]
    exact advanceI_i_toNat (ha ▸ hin)
  · obtain ⟨t, ht, hf, hload, hkeep⟩ := loadRegs_regsUpTo_over (ia := some s.instrAddr) hout
    exact ⟨_, Res.outcome_bind_of_raised ht, congrArg (enterFault _) hf, hload, hkeep⟩

/-- Settles O37: FX65 reads each of V0 to VX where FX55 stored it (O35, O36), and both advance the same I by X + 1. -/
theorem storeThenLoadRestoresRegisters : Obligations.StoreThenLoadRestoresRegisters := by
  intro x s hw hin
  obtain ⟨-, hstore, -⟩ := storeRegistersAdvancesIndex x s hw
  obtain ⟨t, ht, -, hti, hstored, -⟩ := hstore hin
  refine ⟨t, ht, fun u hmem hui => ?_⟩
  have haddr : u.dataAddr = s.dataAddr := congrArg BitVec.toNat hui
  obtain ⟨-, hload, -⟩ := loadRegistersAdvancesIndex x u
  obtain ⟨w, hw', -, hwi, hloaded, -⟩ := hload (haddr ▸ hin)
  refine ⟨w, hw', BitVec.eq_of_toNat_eq (by rw [hwi, hti, haddr]), fun k hk => ?_⟩
  rw [hloaded k hk, hmem, haddr, hstored k hk]

/-- Settles O31: zero-extending NNN keeps its value. -/
theorem loadIndex : Obligations.LoadIndex :=
  fun nnn _ => ⟨fmtA12_toNat 0xA nnn, _, rfl, rfl, zext12_toNat nnn⟩

/-- Settles O32: the sum of two words is their sum mod 2^16, and zero-extending V[X] keeps its value. -/
theorem addToIndexWraps : Obligations.AddToIndexWraps := by
  refine fun x s => ⟨fmtRS8_toNat' 0xF x 0x1E rfl, _, rfl, rfl, ?_⟩
  show (s.i + zext8 (s.reg x)).toNat = _
  rw [BitVec.toNat_add, zext8_toNat]

/-- Settles O33: the glyph address is exact. -/
theorem pointAtGlyph : Obligations.PointAtGlyph :=
  fun x s => ⟨fmtRS8_toNat' 0xF x 0x29 rfl, _, rfl, rfl, glyphAddr_toNat (s.reg x)⟩

end Sys2Proof.Machine

namespace Sys2Proof.Machine

/-! ## The display (spec/44_display.md R190 to R197) -/

theorem flagByte_eq_zero_or_one (f : Bool) : flagByte f = 0 ∨ flagByte f = 1 := by
  cases f
  · exact .inl rfl
  · exact .inr rfl

theorem flagByte_eq_one_iff (f : Bool) : flagByte f = 1 ↔ f = true := by
  cases f <;> decide

section Drawing

variable {x y : Reg} {n : Nibble} {s : State}

/-- A sprite is its rows in memory from I on, so no other piece of state moves its bits (R193). -/
theorem spriteBit_congr {t : State} (hmem : t.mem = s.mem) (hi : t.i = s.i) (vx vy : Byte) (k : Nat) (cx : Col) (cy : Row) :
    t.spriteBit vx vy k cx cy = s.spriteBit vx vy k cx cy := by
  rw [spriteBit_eq, spriteBit_eq, hmem, hi]

/-- A sprite inside memory: every cell takes its bit by XOR, and then VF is the collision (R193, R194). -/
theorem exec_drw_fits (h : n = 0 ∨ s.dataAddr + n.toNat ≤ 4096) :
    ∃ (t : State) (c : Bool), exec (.drw x y n) s = .next (t.setReg VF (flagByte c)) ∧ t = { s with disp := t.disp } ∧
      (∀ cx cy, t.getPixel cx cy = (s.getPixel cx cy ^^ s.spriteBit (s.reg x) (s.reg y) n.toNat cx cy)) ∧
      (c = true ↔ ∃ cx cy, s.getPixel cx cy = true ∧ s.spriteBit (s.reg x) (s.reg y) n.toNat cx cy = true) := by
  have hn : n.toNat ≤ 32 := by have := n.isLt; omega
  obtain ⟨t, c, ht, hframe, hcells, hcollision⟩ := drawRows_inside (ia := some s.instrAddr) (vx := s.reg x) (y := s.reg y)
    (c := false) hn (h.imp_left (congrArg BitVec.toNat))
  refine ⟨t, c, ?_, hframe, hcells, hcollision.trans (or_iff_right Bool.false_ne_true)⟩
  show execDrw x y n s = _
  rw [execDrw, ht, Res.bind_ok, Res.outcome_ok]

/-- A sprite that leaves memory: the rows inside are drawn, and the read of the first row past the end faults (R193). -/
theorem exec_drw_over (hn : n ≠ 0) (h : 4096 < s.dataAddr + n.toNat) :
    ∃ t, exec (.drw x y n) s =
        .next (enterFault (.memoryOutOfBounds (max s.dataAddr 4096) .read (some s.instrAddr)) t) ∧
      t = { s with disp := t.disp } ∧
      ∀ cx cy, t.getPixel cx cy = (s.getPixel cx cy ^^ s.spriteBit (s.reg x) (s.reg y) (4096 - s.dataAddr) cx cy) := by
  have hn32 : n.toNat ≤ 32 := by have := n.isLt; omega
  have hn0 : n.toNat ≠ 0 := fun h0 => hn (BitVec.eq_of_toNat_eq h0)
  obtain ⟨t, ht, hframe, hcells⟩ := drawRows_outside (ia := some s.instrAddr) (vx := s.reg x) (y := s.reg y) (c := false)
    (s := s) hn32 hn0 h
  refine ⟨t, ?_, hframe, hcells⟩
  show execDrw x y n s = _
  rw [execDrw, ht, Res.bind_raise, Res.outcome_raise]

end Drawing

/-- Settles O39: in memory the draw completes (`exec_drw_fits`), and its one write to a register is the collision, to VF; past
the end of memory it faults before that write (`exec_drw_over`). -/
theorem drawSpriteXorsCells : Obligations.DrawSpriteXorsCells := by
  refine fun x y n s => ⟨fmtRRS_toNat 0xD x y n, fun hin => ?_, fun hn hout => ?_⟩
  · obtain ⟨t, c, he, hframe, hcells, hcollision⟩ := exec_drw_fits (x := x) (y := y) hin
    refine ⟨_, he, by rw [hframe]; rfl, hcells, fun r => exec_drw_reg_of_ne he, ?_, ?_⟩
    · rw [reg_setReg_self]
      exact flagByte_eq_zero_or_one c
    · rw [reg_setReg_self, flagByte_eq_one_iff]
      exact hcollision
  · obtain ⟨t, he, hframe, hcells⟩ := exec_drw_over (x := x) (y := y) hn hout
    exact ⟨_, he, congrArg (enterFault _) hframe, hcells⟩

/-- Settles O40: the first draw moves neither I, memory nor the coordinates, so by O39 the second XORs the same bits into the
cells it left. A set bit lands on a set cell of the second draw exactly where the cell was clear before the first. -/
theorem drawTwiceRestoresDisplay : Obligations.DrawTwiceRestoresDisplay := by
  intro x y n s hx hy hin
  obtain ⟨-, hfirst, -⟩ := drawSpriteXorsCells x y n s
  obtain ⟨t, ht, hframe, htcells, htregs, -⟩ := hfirst hin
  have hi : t.i = s.i := (congrArg State.i hframe).trans rfl
  have hmem : t.mem = s.mem := (congrArg State.mem hframe).trans rfl
  obtain ⟨-, hsecond, -⟩ := drawSpriteXorsCells x y n t
  obtain ⟨u, hu, -, hucells, -, -, huVF⟩ := hsecond (by rw [State.dataAddr, hi]; exact hin)
  simp only [htregs x hx, htregs y hy, spriteBit_congr hmem hi, htcells] at hucells huVF
  refine ⟨t, u, ht, hu, disp_ext fun cx cy => ?_, huVF.trans ?_⟩
  · show u.disp[cx][cy] = s.disp[cx][cy]
    rw [hucells, Bool.xor_assoc, Bool.xor_self, Bool.xor_false]
  · refine exists_congr fun cx => exists_congr fun cy => and_congr_left fun hbit => ?_
    rw [hbit, Bool.xor_true, Bool.not_eq_true']

/-- Settles O38: clearing writes the display alone, and each of its cells reads as clear (`getPixel_clearDisplay`). -/
theorem clearScreen : Obligations.ClearScreen :=
  ⟨rfl, fun s => ⟨_, rfl, rfl, getPixel_clearDisplay s⟩⟩

end Sys2Proof.Machine

namespace Sys2Proof.Machine

/-! ## The keyboard (spec/45_keyboard.md R211 to R217, spec/60_exceptions.md R252, R256) -/

section Keyboard

variable {s : State} {x : Reg} {k : Key}

/-- A register below 16 names its key (R212). -/
theorem keyOperand_of_key (h : (s.reg x).toNat = k.val) : keyOperand x s = .ok k s := by
  have hk : keyOf (s.reg x) = some k := (keyOf_of_lt (h ▸ k.isLt)).trans (congrArg some (Fin.ext h))
  simp only [keyOperand, hk]

/-- From 16 on a register names no key (R212); the instruction's address is two below pc (R33). -/
theorem keyOperand_of_ge (h : 16 ≤ (s.reg x).toNat) :
    keyOperand x s = raise (.keyOutOfRange (s.reg x) (s.pc - 2)) s := by
  simp only [keyOperand, keyOf_of_ge h, State.instrAddr]

theorem skipIf_not (c : Bool) (s : State) : skipIf (!c) s = if c = true then s else { s with pc := s.pc + 2 } := by
  cases c <;> rfl

theorem exec_skp_of_key (h : (s.reg x).toNat = k.val) : exec (.skp x) s = .next (skipIf (s.isPressed k) s) := by
  show execSkp x s = _
  rw [execSkp, keyOperand_of_key h, Res.bind_ok, Res.outcome_ok]

theorem exec_sknp_of_key (h : (s.reg x).toNat = k.val) : exec (.sknp x) s = .next (skipIf (!s.isPressed k) s) := by
  show execSknp x s = _
  rw [execSknp, keyOperand_of_key h, Res.bind_ok, Res.outcome_ok]

theorem exec_skp_of_ge (h : 16 ≤ (s.reg x).toNat) :
    exec (.skp x) s = .next (enterFault (.keyOutOfRange (s.reg x) (s.pc - 2)) s) := by
  show execSkp x s = _
  rw [execSkp, keyOperand_of_ge h, Res.bind_raise, Res.outcome_raise]

theorem exec_sknp_of_ge (h : 16 ≤ (s.reg x).toNat) :
    exec (.sknp x) s = .next (enterFault (.keyOutOfRange (s.reg x) (s.pc - 2)) s) := by
  show execSknp x s = _
  rw [execSknp, keyOperand_of_ge h, Res.bind_raise, Res.outcome_raise]

/-- The rewind of a halted core and its fetch cancel, so that a step is the FX0A executed once more (R101, R217). -/
theorem step_of_awaiting (hf : s.fault = none) (hh : s.halted = true) (hb : s.fx0aBefore x) :
    step s = exec (.ldVxK x) s := by
  obtain ⟨hin, hw⟩ := hb
  have haddr : s.fetchAddr = s.pc - 2 := fetchAddr_halted hh
  have hpc : s.fetchAddr + 2 = s.pc := by rw [haddr, BitVec.sub_add_cancel]
  have hfetch := fetch_rewind_inside (s := s) (by rw [haddr]; exact hin)
  have hd : decodeWord (s.wordAt s.fetchAddr) = .ok (.ldVxK x) := by rw [haddr, hw, decodeWord_ldVxK]
  rw [step_of_decoded hf hfetch hd, hpc]

theorem keyEvent_of_not_faulted (k : Key) (down : Bool) (hf : s.fault = none) : keyEvent k down s = s.setKey k down := by
  simp [keyEvent, State.faulted, hf]

/-- The clamped decrement is subtraction on the naturals (R252). -/
theorem decrement_eq_ofNat (b : Byte) : decrement b = BitVec.ofNat 8 (b.toNat - 1) := by
  unfold decrement
  split
  · next h => rw [h]; rfl
  · next h =>
    have hpos : b.toNat ≠ 0 := fun h0 => h (BitVec.eq_of_toNat_eq h0)
    apply BitVec.eq_of_toNat_eq
    bv_omega

/-- TICK on a core that is not faulted; the sound timer stays as it is (R252, R253). -/
theorem tick_of_not_faulted (hf : s.fault = none) : tick s = { s with dt := BitVec.ofNat 8 (s.dt.toNat - 1) } := by
  simp [tick, tickWith, State.faulted, hf, Config.soundTimerDecays, decrement_eq_ofNat]

/-- A batch of steps that change nothing runs to its end and changes nothing (R256). -/
theorem stepBatch_of_step_self (h : step s = .next s) (hf : s.fault = none) : ∀ n, stepBatch n s = (s, .ok)
  | 0 => rfl
  | n + 1 => by
    have hop : stepOp s = (s, .ok) := by simp only [stepOp, h, response_of_fault_none hf]
    simp only [stepBatch, hop]
    exact stepBatch_of_step_self h hf n

end Keyboard

/-- Settles O42: the query sees the keys of the state before, and the two writes are to V[X] and to the key it finds. -/
theorem waitForKeyTakesLowest : Obligations.WaitForKeyTakesLowest := by
  refine fun x s => ⟨fmtRS8_toNat' 0xF x 0x0A rfl, fun hnone => ⟨exec_ldVxK_none hnone, takeAnyPressed_none hnone⟩,
    fun k hk hlow => ⟨⟨_, exec_ldVxK_some hk hlow, rfl, ?_, ?_, ?_, ?_⟩, takeAnyPressed_some hk hlow⟩⟩
  · exact reg_setReg_self _ x _
  · exact fun r hr => reg_setReg_ne _ _ hr
  · exact isPressed_setKey_self s k false
  · exact fun j hj => isPressed_setKey_ne s false hj

/-- Settles O6: the step is the FX0A executed on the state itself (`step_of_awaiting`), where O42 says what it does; with no
key it sets `halted`, which is set already. -/
theorem awaitingKeyStepPollsAgain : Obligations.AwaitingKeyStepPollsAgain := by
  intro s x hf hh hb
  obtain ⟨-, hnone, hsome⟩ := waitForKeyTakesLowest x s
  rw [step_of_awaiting hf hh hb]
  refine ⟨fun hkeys => ?_, fun k hk hlow => (hsome k hk hlow).1⟩
  rw [(hnone hkeys).1, ← hh]

/-- Settles O49: TICK leaves pc, memory, `halted` and the keys alone, so by O6 every step of the batch leaves the ticked state
as it is. -/
theorem waitingFrameOnlyTicks : Obligations.WaitingFrameOnlyTicks := by
  intro s x hf hh hb hkeys
  have hpoll := (awaitingKeyStepPollsAgain { s with dt := BitVec.ofNat 8 (s.dt.toNat - 1) } x hf hh hb).1 hkeys
  rw [frame, frameWith, deliver, tick_of_not_faulted hf]
  exact stepBatch_of_step_self hpoll hf _

/-- Settles O41: below 16 both are skips, on the state of the key and on its negation; from 16 on both raise. -/
theorem skipsOnKey : Obligations.SkipsOnKey :=
  fun x s => ⟨fmtRS8_toNat' 0xE x 0x9E rfl, fmtRS8_toNat' 0xE x 0xA1 rfl,
    fun k hk => ⟨exec_skp_of_key hk, (exec_sknp_of_key hk).trans (congrArg _ (skipIf_not (s.isPressed k) s))⟩,
    fun hge => ⟨exec_skp_of_ge hge, exec_sknp_of_ge hge⟩⟩

/-- Settles O45: on a core that is not faulted a key event is one write to its key. -/
theorem keyEventsSetAndClear : Obligations.KeyEventsSetAndClear :=
  fun k s hf =>
    ⟨⟨_, Prod.ext (keyEvent_of_not_faulted k true hf) rfl, rfl, isPressed_setKey_self s k true,
        fun _ => isPressed_setKey_ne s true⟩,
      _, Prod.ext (keyEvent_of_not_faulted k false hf) rfl, rfl, isPressed_setKey_self s k false,
        fun _ => isPressed_setKey_ne s false⟩

end Sys2Proof.Machine

namespace Sys2Proof.Machine

/-! ## The timers (spec/46_timers.md R230 to R232) -/

theorem exec_dt_of_ne {i : Instr} {s t : State} (hi : ∀ x, i ≠ .ldDTVx x) (h : exec i s = .next t) : t.dt = s.dt := by
  by_contra hne
  obtain ⟨x, hx⟩ := (exec_changes h).dt_writer hne
  exact hi x hx

/-- Settles O43: each of the three is one write, and no frame but FX15's lets DT differ (`exec_dt_of_ne`). -/
theorem timerInstructions : Obligations.TimerInstructions :=
  fun x s => ⟨fmtRS8_toNat' 0xF x 0x07 rfl, fmtRS8_toNat' 0xF x 0x15 rfl, fmtRS8_toNat' 0xF x 0x18 rfl,
    ⟨_, rfl, writesReg_setReg x s rfl⟩, rfl, rfl, fun _ _ h hi => exec_dt_of_ne hi h⟩

end Sys2Proof.Machine

namespace Sys2Proof.Machine

/-! ## The host's operations and faults (spec/60_exceptions.md R242, R251, R252, R255, R256, R258) -/

section Operations

variable {s t : State} {f : Fault}

@[simp] theorem keyEvent_dt (k : Key) (down : Bool) (s : State) : (keyEvent k down s).dt = s.dt := by
  unfold keyEvent; split <;> rfl

theorem deliver_dt (events : List KeyEvent) (s : State) : (deliver events s).dt = s.dt := by
  induction events generalizing s with
  | nil => rfl
  | cons e es ih => rw [deliver, ih, keyEvent_dt]

/-- Neither the fetch nor a fault taken in a step reaches DT, so only the decoded instruction can change it (R231). -/
theorem decodeWord_of_step_dt_ne (h : step s = .next t) (hne : t.dt ≠ s.dt) :
    ∃ x, decodeWord (s.wordAt s.fetchAddr) = .ok (.ldDTVx x) := by
  rcases step_next_cases h with ⟨-, f, rfl⟩ | ⟨r, f, -, rfl⟩ | ⟨-, i, hd, he⟩
  · exact absurd rfl hne
  · exact absurd rfl hne
  · obtain ⟨x, rfl⟩ := (exec_changes he).dt_writer hne
    exact ⟨x, hd⟩

theorem stepOp_of_fault (hf : s.fault = some f) : stepOp s = (s, .fault f) := by
  simp only [stepOp, step_of_fault hf]

theorem tick_of_fault (hf : s.fault = some f) : tick s = s := by
  simp [tick, tickWith, State.faulted, hf]

theorem keyEvent_of_fault (k : Key) (down : Bool) (hf : s.fault = some f) : keyEvent k down s = s := by
  simp [keyEvent, State.faulted, hf]

theorem operate_readStatus_of_fault (hf : s.fault = some f) :
    operate .readStatus s = (s, .status true (some f) s.halted) := by
  simp only [operate, State.faulted, hf, Option.isSome_some]

/-- Reading every cell gives the grid back (R255). -/
theorem readout_eq_disp (s : State) : readout s = s.disp := by
  ext x hx y hy
  simp [readout, State.getPixel]

/-- `JP a` fetched from a leads back to a: the only write of the step, after the fetch's, is pc's own value (R121, R258). -/
theorem step_of_self_jump {nnn : Addr12} (hf : s.fault = none) (hh : s.halted = false) (hpc : zext12 nnn = s.pc)
    (hin : s.pc.toNat + 1 < 4096) (hw : s.wordAt s.pc = encode (.jp nnn)) : step s = .next s := by
  have haddr : s.fetchAddr = s.pc := fetchAddr_running hh
  have hfetch := fetch_rewind_inside (s := s) (by rw [haddr]; exact hin)
  have hd : decodeWord (s.wordAt s.fetchAddr) = .ok (.jp nnn) := by rw [haddr, hw, decodeWord_encode]
  calc step s
      _ = exec (.jp nnn) { s with pc := s.fetchAddr + 2 } := step_of_decoded hf hfetch hd
      _ = .next { s with pc := zext12 nnn } := rfl
      _ = .next s := by rw [hpc]

end Operations

/-- Settles O44: TICK is the clamped subtraction (`tick_of_not_faulted`), a key event writes `key` alone, and of what a step
can do only an FX15 writes DT. -/
theorem tickDecrementsDelayTimer : Obligations.TickDecrementsDelayTimer := by
  refine ⟨fun s hf => ?_, deliver_dt, fun s t => decodeWord_of_step_dt_ne⟩
  have htick := tick_of_not_faulted hf
  refine ⟨Prod.ext htick rfl, fun steps events => ?_⟩
  rw [frameWith, htick]

/-- Settles O5: STEP, TICK and the key events ask for the fault record before they do anything, the readouts change nothing,
and RESET clears the record. -/
theorem faultedCoreIsTerminal : Obligations.FaultedCoreIsTerminal :=
  fun s _ hf => ⟨step_of_fault hf, stepOp_of_fault hf, Prod.ext (tick_of_fault hf) rfl,
    fun k => ⟨Prod.ext (keyEvent_of_fault k true hf) rfl, Prod.ext (keyEvent_of_fault k false hf) rfl⟩,
    fun _ _ => rfl, operate_readStatus_of_fault hf, fun _ => resetWith_fault_of_fits s⟩

/-- Settles O48: the two readouts answer the state's own fields, and the full readout is the grid cell by cell
(`readout_eq_disp`). -/
theorem readoutsAnswerAndChangeNothing : Obligations.ReadoutsAnswerAndChangeNothing :=
  fun s => ⟨fun _ _ => rfl, rfl, readout_eq_disp s⟩

/-- Settles O56: zero-extended, NNN is the address the word was fetched from. -/
theorem selfJumpIsFixedPoint : Obligations.SelfJumpIsFixedPoint := by
  intro s nnn hf hh hpc hin hw
  have hzext : zext12 nnn = s.pc := BitVec.eq_of_toNat_eq ((zext12_toNat nnn).trans hpc.symm)
  exact step_of_self_jump hf hh hzext hin hw

end Sys2Proof.Machine
